-- ==== Sys2Proof/Word.lean ====
section
/-! DEFINITION. Word.lean: the port word and the names of the two formats. -/

namespace Sys2Proof

/-- A 256-bit port word: an operand port or the response port (spec/10_state.md R18). -/
abbrev Word := BitVec 256

/-- The two formats of spec/00_scope.md R1 and R4. -/
inductive Fmt where
  /-- F128: 1 sign, 15 exponent, 112 fraction bits. -/
  | f128
  /-- F256: 1 sign, 19 exponent, 236 fraction bits. -/
  | f256
deriving DecidableEq, Repr

end Sys2Proof
end

