-- ==== Sys2Proof/Config.lean ====
section
/-! DEFINITION. Config.lean: what an implementation fixes (spec/00_scope.md R5). The format constants of R4 are
functions of the format, in Machine/Format.lean. -/

namespace Sys2Proof.Config

/-- The free part of the queue's capacity: spec/00_scope.md R5 leaves `DEPTH` open, "any natural number >= 1".
It has no body, so nothing can be proved from a particular capacity. Log entry 2. -/
opaque extraDepth : Nat

/-- `DEPTH`, the capacity of the in-flight queue (spec/00_scope.md R5, spec/10_state.md R14), at least 1. -/
def DEPTH : Nat := extraDepth + 1

/-- `G`, the guard bits below the fractions in the ADD and FMA datapaths (spec/00_scope.md R5). -/
def guardBits : Nat := 3

end Sys2Proof.Config
end

