-- ==== Sys2Proof/Syntax.lean ====
section
/-! DEFINITION. Syntax.lean: commands as they stand on the ports (spec/30_encoding.md R36), the fourteen commands
with their operands (R37), and the host's assembler lines (R38). -/

namespace Sys2Proof

/-- The one command format `CMD4` (R36): the command word and the three operand ports, as sampled at one edge. -/
structure Command where
  /-- `cmd_op[3:0]`: bit 3 the format, bits 2:0 the operation. -/
  op : BitVec 4
  /-- `cmd_a`, the first operand port. -/
  a : Word
  /-- `cmd_b`, the second operand port. -/
  b : Word
  /-- `cmd_c`, the third operand port. -/
  c : Word
deriving DecidableEq, Repr

/-- The fourteen commands of the opcode map (R37), each with the operands it names, in its own format's width. -/
inductive Instr where
  /-- `add.128`, `cmd_op = 0x0`: `a + b` rounded. -/
  | add128 (a b : BitVec 128)
  /-- `sub.128`, `cmd_op = 0x1`: `a - b` rounded. -/
  | sub128 (a b : BitVec 128)
  /-- `mul.128`, `cmd_op = 0x2`: `a * b` rounded. -/
  | mul128 (a b : BitVec 128)
  /-- `quo.128`, `cmd_op = 0x3`: `a / b` rounded. -/
  | quo128 (a b : BitVec 128)
  /-- `sqrt.128`, `cmd_op = 0x4`: the square root of `a` rounded. -/
  | sqrt128 (a : BitVec 128)
  /-- `fma.128`, `cmd_op = 0x5`: `a * b + c` rounded once. -/
  | fma128 (a b c : BitVec 128)
  /-- `class.128`, `cmd_op = 0x6`: the classification word of `a`. -/
  | class128 (a : BitVec 128)
  /-- `add.256`, `cmd_op = 0x8`. -/
  | add256 (a b : BitVec 256)
  /-- `sub.256`, `cmd_op = 0x9`. -/
  | sub256 (a b : BitVec 256)
  /-- `mul.256`, `cmd_op = 0xA`. -/
  | mul256 (a b : BitVec 256)
  /-- `quo.256`, `cmd_op = 0xB`. -/
  | quo256 (a b : BitVec 256)
  /-- `sqrt.256`, `cmd_op = 0xC`. -/
  | sqrt256 (a : BitVec 256)
  /-- `fma.256`, `cmd_op = 0xD`. -/
  | fma256 (a b c : BitVec 256)
  /-- `class.256`, `cmd_op = 0xE`. -/
  | class256 (a : BitVec 256)
deriving DecidableEq, Repr

/-- The seven operations, in the order of their `op` values 0 to 6 (R37). -/
inductive Operation where
  | add | sub | mul | quo | sqrt | fma | classify
deriving DecidableEq, Repr

/-- An operand of an assembler line (R38): a hexadecimal literal, most significant digit first, or `$k`, the low
`N` bits of the response to the `k`-th command of the same stream. -/
inductive AsmOperand where
  | literal (digits : List (Fin 16))
  | response (k : Nat)
deriving DecidableEq, Repr

/-- One line of a command stream (R38): a mnemonic, that is an operation and a format, and its operands. -/
structure AsmLine where
  operation : Operation
  fmt : Fmt
  operands : List AsmOperand
deriving DecidableEq, Repr

end Sys2Proof
end

