-- ==== Sys2Proof/WellFormed.lean ====
section
/-! DEFINITION. WellFormed.lean: which commands select an operation (spec/30_encoding.md R39), and which lines of a
command stream are legal (R38). -/

namespace Sys2Proof

/-- A command word is reserved when its operation field `cmd_op[2:0]` is 7, that is `0x7` and `0xF` (R39). -/
def reservedWord (op : BitVec 4) : Bool := op.extractLsb' 0 3 == 7#3

/-- A command the host may offer: its command word is not reserved (R39). Every operand is legal. -/
def Command.WellFormed (c : Command) : Bool := !reservedWord c.op

/-- Every instruction is well formed: its operands have their format's width, and every pattern of that width is
legal for every command (R32, R39). -/
def Instr.WellFormed : Instr → Bool
  | .add128 _ _ | .sub128 _ _ | .mul128 _ _ | .quo128 _ _ | .sqrt128 _ | .fma128 _ _ _ | .class128 _ => true
  | .add256 _ _ | .sub256 _ _ | .mul256 _ _ | .quo256 _ _ | .sqrt256 _ | .fma256 _ _ _ | .class256 _ => true

/-- How many operands an operation names (R38). -/
def Operation.arity : Operation → Nat
  | .sqrt | .classify => 1
  | .add | .sub | .mul | .quo => 2
  | .fma => 3

/-- The number of hexadecimal digits of a literal: `N/4` (R38). -/
def Fmt.hexDigits : Fmt → Nat
  | .f128 => 32
  | .f256 => 64

/-- A legal operand of line `index`: a literal of exactly `N/4` digits, or a reference to an earlier line (R38). -/
def AsmOperand.WellFormed (F : Fmt) (index : Nat) : AsmOperand → Bool
  | .literal digits => digits.length == F.hexDigits
  | .response k => decide (k < index)

/-- A legal line at position `index` of its stream: exactly the operands its operation names, each legal (R38). -/
def AsmLine.WellFormed (index : Nat) (l : AsmLine) : Bool :=
  l.operands.length == l.operation.arity && l.operands.all (AsmOperand.WellFormed l.fmt index)

end Sys2Proof
end

