-- ==== Sys2Proof/Decode.lean ====
section
/-! DEFINITION. Decode.lean: from the ports to a command and back (spec/30_encoding.md R36, R37, R39), the command
as one number for the opcode table, and the translation of assembler lines (R38). -/

namespace Sys2Proof

/-- The operand of a `.128` command: bits 127:0 of the port; bits 255:128 are ignored (R36). -/
def operand128 (p : Word) : BitVec 128 := p.extractLsb' 0 128

/-- Decoding is total: the opcode map of R37, with the two reserved words `0x7` and `0xF` decoding to nothing
(R39). Ports an operation does not name are not read (spec/10_state.md R15). -/
def decode (c : Command) : Option Instr :=
  match c.op.toNat with
  | 0x0 => some (.add128 (operand128 c.a) (operand128 c.b))
  | 0x1 => some (.sub128 (operand128 c.a) (operand128 c.b))
  | 0x2 => some (.mul128 (operand128 c.a) (operand128 c.b))
  | 0x3 => some (.quo128 (operand128 c.a) (operand128 c.b))
  | 0x4 => some (.sqrt128 (operand128 c.a))
  | 0x5 => some (.fma128 (operand128 c.a) (operand128 c.b) (operand128 c.c))
  | 0x6 => some (.class128 (operand128 c.a))
  | 0x8 => some (.add256 c.a c.b)
  | 0x9 => some (.sub256 c.a c.b)
  | 0xA => some (.mul256 c.a c.b)
  | 0xB => some (.quo256 c.a c.b)
  | 0xC => some (.sqrt256 c.a)
  | 0xD => some (.fma256 c.a c.b c.c)
  | 0xE => some (.class256 c.a)
  | _ => none

/-- The port word that carries a 128-bit operand over the junk word `j`: `j` fills bits 255:128, which the unit
ignores (R36). -/
def port128 (x : BitVec 128) (j : Word) : Word := (j.extractLsb' 128 128 ++ x : BitVec (128 + 128))

/-- The encoder over junk: the command word of R37 and the named operands in their places; whatever the command
does not use keeps the bits of `j`, which may be anything (R36, R38; spec/10_state.md R15). -/
def encodeOver (j : Command) : Instr → Command
  | .add128 a b => ⟨0x0#4, port128 a j.a, port128 b j.b, j.c⟩
  | .sub128 a b => ⟨0x1#4, port128 a j.a, port128 b j.b, j.c⟩
  | .mul128 a b => ⟨0x2#4, port128 a j.a, port128 b j.b, j.c⟩
  | .quo128 a b => ⟨0x3#4, port128 a j.a, port128 b j.b, j.c⟩
  | .sqrt128 a => ⟨0x4#4, port128 a j.a, j.b, j.c⟩
  | .fma128 a b c => ⟨0x5#4, port128 a j.a, port128 b j.b, port128 c j.c⟩
  | .class128 a => ⟨0x6#4, port128 a j.a, j.b, j.c⟩
  | .add256 a b => ⟨0x8#4, a, b, j.c⟩
  | .sub256 a b => ⟨0x9#4, a, b, j.c⟩
  | .mul256 a b => ⟨0xA#4, a, b, j.c⟩
  | .quo256 a b => ⟨0xB#4, a, b, j.c⟩
  | .sqrt256 a => ⟨0xC#4, a, j.b, j.c⟩
  | .fma256 a b c => ⟨0xD#4, a, b, c⟩
  | .class256 a => ⟨0xE#4, a, j.b, j.c⟩

/-- The command with zeros wherever the instruction leaves a bit free. -/
def encode (i : Instr) : Command := encodeOver ⟨0, 0, 0, 0⟩ i

/-- A command as the 772 bits an Accept samples (spec/20_memory.md R23), as one number: the command word lowest,
then `cmd_a`, `cmd_b`, `cmd_c`. The order of the operand words in the number is the model's (log entry 10). -/
def Command.toNat (c : Command) : Nat :=
  c.op.toNat + c.a.toNat <<< 4 + c.b.toNat <<< 260 + c.c.toNat <<< 516

/-- The command whose 772 bits are the low bits of `w`. -/
def Command.ofNat (w : Nat) : Command :=
  ⟨BitVec.ofNat 4 w, BitVec.ofNat 256 (w >>> 4), BitVec.ofNat 256 (w >>> 260), BitVec.ofNat 256 (w >>> 516)⟩

/-- The instruction the decoder reads from the low `nbits` bits of `w`, every bit above them 0. -/
def decodeTableWord (nbits w : Nat) : Option Instr := decode (Command.ofNat (w % 2 ^ nbits))

/-- The `op` field of an operation, `cmd_op[2:0]` (R37). -/
def Operation.number : Operation → BitVec 3
  | .add => 0
  | .sub => 1
  | .mul => 2
  | .quo => 3
  | .sqrt => 4
  | .fma => 5
  | .classify => 6

/-- The `fmt` bit of a format, `cmd_op[3]` (R36). -/
def Fmt.bit : Fmt → BitVec 1
  | .f128 => 0
  | .f256 => 1

/-- The command word of an operation in a format: `fmt` above `op` (R36). -/
def commandWord (F : Fmt) (o : Operation) : BitVec 4 := F.bit ++ o.number

/-- The operation an instruction performs (R37). -/
def Instr.operation : Instr → Operation
  | .add128 _ _ | .add256 _ _ => .add
  | .sub128 _ _ | .sub256 _ _ => .sub
  | .mul128 _ _ | .mul256 _ _ => .mul
  | .quo128 _ _ | .quo256 _ _ => .quo
  | .sqrt128 _ | .sqrt256 _ => .sqrt
  | .fma128 _ _ _ | .fma256 _ _ _ => .fma
  | .class128 _ | .class256 _ => .classify

/-- The format an instruction works in (R37). -/
def Instr.fmt : Instr → Fmt
  | .add128 _ _ | .sub128 _ _ | .mul128 _ _ | .quo128 _ _ | .sqrt128 _ | .fma128 _ _ _ | .class128 _ => .f128
  | .add256 _ _ | .sub256 _ _ | .mul256 _ _ | .quo256 _ _ | .sqrt256 _ | .fma256 _ _ _ | .class256 _ => .f256

/-- The number a literal writes, most significant digit first (R38). -/
def literalValue (digits : List (Fin 16)) : Nat := digits.foldl (fun n d => 16 * n + d.val) 0

/-- The port word of an operand, given the responses the host has taken so far, oldest first: a literal, or the
low `N` bits of response `k` (R38). -/
def AsmOperand.port (F : Fmt) (responses : List Word) : AsmOperand → Option Word
  | .literal digits => some (BitVec.ofNat 256 (literalValue digits))
  | .response k =>
    match F with
    | .f128 => responses[k]?.map fun r => (operand128 r).setWidth 256
    | .f256 => responses[k]?

/-- The command a line stands for, unnamed ports zero; `none` when a reference has no response yet or the number of
operands is not the operation's (R38). -/
def AsmLine.command (responses : List Word) (l : AsmLine) : Option Command :=
  match l.operands.mapM (AsmOperand.port l.fmt responses) with
  | some [a] => if l.operation.arity = 1 then some ⟨commandWord l.fmt l.operation, a, 0, 0⟩ else none
  | some [a, b] => if l.operation.arity = 2 then some ⟨commandWord l.fmt l.operation, a, b, 0⟩ else none
  | some [a, b, c] => if l.operation.arity = 3 then some ⟨commandWord l.fmt l.operation, a, b, c⟩ else none
  | _ => none

end Sys2Proof
end

