-- ==== Sys2Proof/Machine/Format.lean ====
section
/-! DEFINITION. Machine/Format.lean: the Format Descriptor: the constants of spec/00_scope.md R4, the layout and the
special patterns of spec/30_encoding.md R30 to R35, and the integer primitives of spec/00_scope.md R7. -/

namespace Sys2Proof

/-- `EW`, the exponent field's width (R4). -/
@[reducible] def Fmt.EW : Fmt → Nat
  | .f128 => 15
  | .f256 => 19

/-- `FW`, the fraction field's width (R4). -/
@[reducible] def Fmt.FW : Fmt → Nat
  | .f128 => 112
  | .f256 => 236

/-- `N`, the total width: sign, exponent, fraction (R4: `1 + EW + FW = N`). -/
@[reducible] def Fmt.N (F : Fmt) : Nat := 1 + F.EW + F.FW

/-- `P`, the precision, `FW + 1` (R4). -/
@[reducible] def Fmt.P (F : Fmt) : Nat := F.FW + 1

/-- `BIAS = 2^(EW-1) - 1` (R4, R31). -/
def Fmt.BIAS (F : Fmt) : Nat := 2 ^ (F.EW - 1) - 1

/-- `EXP_ALL1 = 2^EW - 1`, the all-ones exponent field (R4). -/
def Fmt.EXP_ALL1 (F : Fmt) : Nat := 2 ^ F.EW - 1

/-- `EMAX`, the largest unbiased exponent of a finite value (R4). -/
def Fmt.EMAX (F : Fmt) : Int := F.BIAS

/-- `EMIN`, the unbiased exponent of the smallest normal value (R4). -/
def Fmt.EMIN (F : Fmt) : Int := 1 - F.BIAS

/-- `IMPLICIT = 1 << FW`, the implicit bit of a triple's fraction (R31). -/
def Fmt.IMPLICIT (F : Fmt) : Nat := 1 <<< F.FW

/-- The number of 64-bit words of a value, `N/64` (R4). -/
def Fmt.words (F : Fmt) : Nat := F.N / 64

/-- An `N`-bit pattern of the format, bit `N-1` the sign (R30). -/
abbrev Pattern (F : Fmt) := BitVec F.N

namespace Machine

/-- `bitlen(v)`: the number of bits needed to write `v` (R7). -/
def bitlen (v : Nat) : Nat := if v = 0 then 0 else Nat.log2 v + 1

/-- `lowbits(v, s) = v mod 2^s` (R7). -/
def lowbits (v s : Nat) : Nat := v % 2 ^ s

/-- `Pack(fmt, s, be, fr)`: the pattern of a sign, a biased exponent and a fraction field
(spec/40_classify_normalize.md R47). -/
def pack (F : Fmt) (s : Bool) (be fr : Nat) : Pattern F :=
  BitVec.ofBool s ++ BitVec.ofNat F.EW be ++ BitVec.ofNat F.FW fr

/-- `ZERO(s)` (R34, R47). -/
def zeroOf (F : Fmt) (s : Bool) : Pattern F := pack F s 0 0

/-- `INF(s)` (R34, R47). -/
def infOf (F : Fmt) (s : Bool) : Pattern F := pack F s F.EXP_ALL1 0

/-- `POS_ZERO` (R34). -/
def posZero (F : Fmt) : Pattern F := zeroOf F false

/-- `QNAN(fmt)`: sign 0, exponent all ones, the top fraction bit set, the rest clear (R35). -/
def qnan (F : Fmt) : Pattern F := pack F false F.EXP_ALL1 (1 <<< (F.FW - 1))

/-- `SIGN_MASK = 1 << (N-1)` (R31). -/
def signMask (F : Fmt) : Pattern F := pack F true 0 0

/-- `EXP_MASK = EXP_ALL1 << FW` (R31). -/
def expMask (F : Fmt) : Pattern F := pack F false F.EXP_ALL1 0

/-- `FRAC_MASK = (1 << FW) - 1` (R31). -/
def fracMask (F : Fmt) : Pattern F := pack F false 0 (2 ^ F.FW - 1)

/-- The host's convention for 64-bit words: word `j` of a value is bits `64j+63 : 64j`
(spec/20_memory.md R21; a convention, not hardware). -/
def hostWord (F : Fmt) (x : Pattern F) (j : Nat) : BitVec 64 := x.extractLsb' (64 * j) 64

/-- The host's convention for bytes: byte `k` of a value is bits `8k+7 : 8k` (spec/20_memory.md R21). -/
def hostByte (F : Fmt) (x : Pattern F) (k : Nat) : BitVec 8 := x.extractLsb' (8 * k) 8

end Machine
end Sys2Proof
end

