-- ==== Sys2Proof/Machine/Classify.lean ====
section
/-! DEFINITION. Machine/Classify.lean: the Classifier & Splitter of spec/40_classify_normalize.md: Split (R40), the
class predicates (R41 to R44) and Normalize with the subnormal renormalizer (R45). -/

namespace Sys2Proof.Machine

/-- `sign(x) = x[N-1]` (R40), also `Signbit(fmt, x)` (R44). -/
def sign (F : Fmt) (x : Pattern F) : Bool := x.getLsbD (F.N - 1)

/-- `bexp(x) = x[N-2 : FW]`, unsigned (R40). -/
def bexp (F : Fmt) (x : Pattern F) : Nat := (x.extractLsb' F.FW F.EW).toNat

/-- `frac(x) = x[FW-1 : 0]`, unsigned (R40). -/
def frac (F : Fmt) (x : Pattern F) : Nat := (x.extractLsb' 0 F.FW).toNat

/-- `IsNaN(fmt, x)` (R41). -/
def isNaN (F : Fmt) (x : Pattern F) : Bool := bexp F x == F.EXP_ALL1 && frac F x != 0

/-- `IsInf(fmt, x)` (R42). -/
def isInf (F : Fmt) (x : Pattern F) : Bool := bexp F x == F.EXP_ALL1 && frac F x == 0

/-- The selector of `IsInfSel`: +1, 0 or -1 (R42). -/
inductive InfSel where
  | positive | either | negative
deriving DecidableEq, Repr

/-- `IsInfSel(fmt, x, sel)` (R42); no other rule uses it. -/
def isInfSel (F : Fmt) (x : Pattern F) : InfSel → Bool
  | .either => isInf F x
  | .positive => isInf F x && !sign F x
  | .negative => isInf F x && sign F x

/-- `IsZero(fmt, x)` (R43). -/
def isZero (F : Fmt) (x : Pattern F) : Bool := bexp F x == 0 && frac F x == 0

/-- `IsSubnormal(fmt, x)`, the subnormal detector (R44). -/
def isSubnormal (F : Fmt) (x : Pattern F) : Bool := bexp F x == 0 && frac F x != 0

/-- `IsNormal(fmt, x)` (R44). -/
def isNormal (F : Fmt) (x : Pattern F) : Bool := decide (1 ≤ bexp F x) && decide (bexp F x ≤ F.EXP_ALL1 - 1)

/-- `IsFinite(fmt, x)` (R44). -/
def isFinite (F : Fmt) (x : Pattern F) : Bool := bexp F x != F.EXP_ALL1

/-- A special operand: a NaN, an infinity or a zero (R49). -/
def isSpecial (F : Fmt) (x : Pattern F) : Bool := isNaN F x || isInf F x || isZero F x

/-- A triple `(s, e, f)`, denoting `(-1)^s * f * 2^(e - FW)` (spec/00_scope.md R9). -/
structure Triple where
  sign : Bool
  exp : Int
  frac : Nat
deriving DecidableEq, Repr

/-- `Normalize(fmt, x)`, for a finite non-zero pattern: a subnormal's highest set bit is moved to the implicit
bit's place (R45). -/
def normalize (F : Fmt) (x : Pattern F) : Triple :=
  if bexp F x != 0 then
    { sign := sign F x, exp := (bexp F x : Int) - F.BIAS, frac := F.IMPLICIT ||| frac F x }
  else
    { sign := sign F x
      exp := (bitlen (frac F x) : Int) - (F.BIAS + F.FW)
      frac := frac F x <<< (F.FW + 1 - bitlen (frac F x)) }

end Sys2Proof.Machine
end

