-- ==== Sys2Proof/Machine/State.lean ====
section
/-! DEFINITION. Machine/State.lean: the state of XFPU (spec/10_state.md R14, R19), what one clock edge brings
(R18), and the ways a step can stop. -/

namespace Sys2Proof.Machine

/-- No fault exists: no command traps, faults or hangs (spec/60_exceptions.md R110). -/
inductive Fault where
deriving DecidableEq, Repr

/-- Why the model gives a step no meaning. -/
inductive Refusal where
  /-- An instruction without a meaning. No arm of `exec` answers it any more. Safe. -/
  | notModelled (mnemonic : String)
  /-- The host offered a reserved command word, `0x7` or `0xF` (spec/30_encoding.md R39; spec/60_exceptions.md R116).
  Raised by the clock edge. Safe: the spec gives such a command no meaning. -/
  | reservedCommand (op : BitVec 4)
  /-- A clock edge without reset before the first reset edge (spec/70_reset_and_hazards.md R133). Raised by the clock
  edge. Safe: the spec leaves everything before the first reset unspecified. -/
  | beforeFirstReset
deriving DecidableEq, Repr

/-- What one rising clock edge brings: the input ports sampled at it (R18), and what the unit would like to drive
on its two handshake outputs, a free choice of the unit (spec/93_implementation_defined.md U2). -/
structure Edge where
  /-- `rst`. -/
  rst : Bool
  /-- `cmd_valid`. -/
  cmdValid : Bool
  /-- `cmd_op`, `cmd_a`, `cmd_b`, `cmd_c`. -/
  cmd : Command
  /-- `rsp_ready`. -/
  rspReady : Bool
  /-- The unit would drive `cmd_ready = 1` if it may. -/
  wishReady : Bool
  /-- The unit would drive `rsp_valid = 1` if it may. -/
  wishValid : Bool
deriving DecidableEq, Repr

/-- Whether the unit has been reset since power-up (spec/70_reset_and_hazards.md R133). -/
inductive Phase where
  | beforeFirstReset
  | running
deriving DecidableEq, Repr

/-- The state. `pending` is all the state R14 gives the unit; `phase` is R133's, `offered` is implied by R136 (a);
`taken` and `inputs` are the model's own (log entries 1, 4, 5, 6). -/
structure State where
  /-- The in-flight queue: responses computed and not yet delivered, oldest first (R14). -/
  pending : List Word
  /-- `rsp_valid` was 1 at the last edge and the response was not taken, so it must stay offered (R136 (a)). -/
  offered : Bool
  /-- Whether a reset edge has been seen since power-up (R133). -/
  phase : Phase
  /-- The responses the host has taken, oldest first (the host's side of R17). -/
  taken : List Word
  /-- What the coming edges bring, soonest first. -/
  inputs : List Edge
deriving DecidableEq, Repr

/-- The machine right after a reset edge (R19, R130): the queue is empty, and there is nothing else to reset.
Nothing is scheduled and nothing has been taken. -/
def State.reset : State :=
  { pending := [], offered := false, phase := .running, taken := [], inputs := [] }

/-- A power-up state with any contents whatever: no reset edge has been seen (R133). -/
def State.powerUp (pending : List Word) (offered : Bool) (inputs : List Edge) : State :=
  { pending := pending, offered := offered, phase := .beforeFirstReset, taken := [], inputs := inputs }

end Sys2Proof.Machine
end

