-- ==== Sys2Proof/Machine/Ops.lean ====
section
/-! DEFINITION. Machine/Ops.lean: the named operations on the state: Accept's effect (spec/10_state.md R16), the
handshake outputs and Deliver (R17), the reset edge (spec/70_reset_and_hazards.md R130), the schedule. XFPU has no
memory (spec/20_memory.md R20), no registers (R10), and takes no exception (spec/60_exceptions.md R114): there is no
operation for any of them. -/

namespace Sys2Proof.Machine

/-- The answer of a step that never stops (R110). -/
abbrev Answer := Host.Outcome State Fault Refusal

/-- `zext_256`: a result on the 256-bit response port (spec/10_state.md R15, spec/20_memory.md R21). -/
def responseWord (F : Fmt) (r : Pattern F) : Word := r.setWidth 256

/-- Accept's effect: the response joins the queue at its tail (R16). It is computed at acceptance (R14). -/
def State.accept (s : State) (response : Word) : State := { s with pending := s.pending ++ [response] }

/-- `rsp_valid` at edge `e`: never while `rst = 1` (R130). Of a running unit, never on an empty queue (R17), always
while an offered response has not been taken (R136 (a)), and otherwise as the unit likes (U2); it does not depend on
`rsp_ready`. Before the first reset edge it is unspecified (R133, U4) and the model leaves it free: it is whatever the
edge wishes, with no rule on it (DESIGN CHOICE, log entry 6). -/
def State.rspValid (s : State) (e : Edge) : Bool :=
  !e.rst &&
    match s.phase with
    | .beforeFirstReset => e.wishValid
    | .running => !s.pending.isEmpty && (s.offered || e.wishValid)

/-- `rsp_data` at edge `e`: the head of a running unit's queue while `rsp_valid = 1` (R17). It is not exposed while
`rsp_valid = 0` (U3, log entry 9), nor before the first reset edge, where it is unspecified (R133, U4; DESIGN CHOICE,
log entry 6). -/
def State.rspData (s : State) (e : Edge) : Option Word :=
  match s.phase with
  | .beforeFirstReset => none
  | .running => if s.rspValid e then s.pending.head? else none

/-- A Deliver happens at edge `e` (R17). -/
def State.delivers (s : State) (e : Edge) : Bool := s.rspValid e && e.rspReady

/-- The queue of capacity `depth` has room at edge `e`: it is not full, or it is full and a Deliver happens at the
same edge (R16). -/
def State.hasRoom (depth : Nat) (s : State) (e : Edge) : Bool :=
  decide (s.pending.length < depth) || (s.pending.length == depth && s.delivers e)

/-- `cmd_ready` at edge `e`: never while `rst = 1` (R130). Of a running unit, never without room (R16), and otherwise
as the unit likes (U2). Before the first reset edge it is unspecified (R133, U4) and the model leaves it free: it is
whatever the edge wishes, with no rule on it (DESIGN CHOICE, log entry 6). -/
def State.cmdReady (depth : Nat) (s : State) (e : Edge) : Bool :=
  !e.rst &&
    match s.phase with
    | .beforeFirstReset => e.wishReady
    | .running => e.wishReady && s.hasRoom depth e

/-- An Accept happens at edge `e` (R16). -/
def State.accepts (depth : Nat) (s : State) (e : Edge) : Bool := e.cmdValid && s.cmdReady depth e

/-- The response channel at edge `e`: a Deliver takes the head (R17); a response offered and not taken stays offered
(R136 (a)). -/
def State.responseChannel (s : State) (e : Edge) : State :=
  if s.delivers e then
    { s with pending := s.pending.tail, taken := s.taken ++ s.pending.head?.toList, offered := false }
  else { s with offered := s.rspValid e }

/-- The reset edge: the queue is emptied, nothing is offered, and the unit runs from here on (R130, R131, R133). What
the host has taken stays taken (R131). -/
def State.resetEdge (s : State) : State := { s with pending := [], offered := false, phase := .running }

/-- An edge at which the host does nothing and the unit wishes nothing. -/
def Edge.idle : Edge :=
  { rst := false, cmdValid := false, cmd := ⟨0, 0, 0, 0⟩, rspReady := false, wishReady := false, wishValid := false }

/-- The coming edge: the first of the schedule, or an idle one when nothing is scheduled (log entry 1). -/
def State.nextEdge (s : State) : Edge := s.inputs.headD .idle

/-- The schedule moves on by one edge. -/
def State.passEdge (s : State) : State := { s with inputs := s.inputs.tail }

/-- The edge at which the host offers the command `c` and the unit is ready for it; a full queue is drained by one at
the same edge, so that there is room (R16). -/
def State.offerEdge (depth : Nat) (s : State) (c : Command) : Edge :=
  { rst := false, cmdValid := true, cmd := c, rspReady := decide (depth ≤ s.pending.length),
    wishReady := true, wishValid := decide (depth ≤ s.pending.length) }

end Sys2Proof.Machine
end

