-- ==== Sys2Proof/Machine/Rounding.lean ====
section
/-! DEFINITION. Machine/Rounding.lean: the rounding engine of spec/41_rounding.md: RNE (R50), the sticky shift
(R52), and the round, renormalize, overflow, underflow, assemble step (R54). -/

namespace Sys2Proof.Machine

/-- `RNE(v, k)`: `v / 2^k` to the nearest natural, ties to even, for `k >= 1` (R50). -/
def rne (v k : Nat) : Nat := (v + ((1 <<< (k - 1)) - 1) + ((v >>> k) &&& 1)) >>> k

/-- `shrcompress(v, d)`: shift right, every lost bit ORed into bit 0 (R52). -/
def shrcompress (v d : Nat) : Nat := (v >>> d) ||| (if lowbits v d != 0 then 1 else 0)

/-- The number of low bits `RoundPack` drops: to `P` bits, or to the subnormal grid if that is coarser (R54). -/
def dropCount (F : Fmt) (m : Nat) (q : Int) : Int := max ((bitlen m : Int) - F.P) ((F.EMIN - F.FW) - q)

/-- `r` of R54: `m * 2^q` in units of the result's grid, rounded once. -/
def roundedMagnitude (F : Fmt) (m : Nat) (q : Int) : Nat :=
  if dropCount F m q ≤ 0 then m <<< (-dropCount F m q).toNat else rne m (dropCount F m q).toNat

/-- The unbiased exponent of the leading bit of `m * 2^q` (R54). -/
def leadExponent (m : Nat) (q : Int) : Int := q + bitlen m - 1

/-- The branch of R54 at or above the smallest normal: `r` and `e` become the result's fields, with the carry out
of rounding (R51) and overflow to infinity (R55). -/
def packNormal (F : Fmt) (s : Bool) (r : Nat) (e : Int) : Pattern F :=
  let carry := r == 1 <<< F.P
  let r' := if carry then r >>> 1 else r
  let e' := if carry then e + 1 else e
  if e' > F.EMAX then infOf F s else pack F s (e' + F.BIAS).toNat (r' - F.IMPLICIT)

/-- The subnormal branch of R54: `r` in the low bits under a zero exponent field; `r = IMPLICIT` is the smallest
normal, `r = 0` the zero of sign `s`. -/
def packSubnormal (F : Fmt) (s : Bool) (r : Nat) : Pattern F := zeroOf F s ||| BitVec.ofNat F.N r

/-- `RoundPack(fmt, s, m, q)`, for `m > 0`: the pattern of `(-1)^s * m * 2^q` rounded once (R54). -/
def roundPack (F : Fmt) (s : Bool) (m : Nat) (q : Int) : Pattern F :=
  if leadExponent m q ≥ F.EMIN then packNormal F s (roundedMagnitude F m q) (leadExponent m q)
  else packSubnormal F s (roundedMagnitude F m q)

end Sys2Proof.Machine
end

