-- ==== Sys2Proof/Machine/AddSub.lean ====
section
/-! DEFINITION. Machine/AddSub.lean: addition and subtraction (spec/42_addsub.md R60, R61) and the commands
add.128, add.256, sub.128, sub.256. -/

namespace Sys2Proof.Machine

/-- A magnitude with a sign, as a signed accumulator term (R60). -/
def signed (s : Bool) (m : Nat) : Int := if s then -(m : Int) else m

/-- The operand of larger exponent first; equal exponents keep their order (R60). -/
def orderByExp (x y : Triple) : Triple × Triple := if x.exp < y.exp then (y, x) else (x, y)

/-- The accumulator of R60 for operands `hi`, `lo` with `hi.exp >= lo.exp` and `g` guard bits: the larger exponent's
fraction over `g` zero bits, and the other aligned to it with sticky. -/
def alignedSum (g : Nat) (hi lo : Triple) : Int :=
  signed hi.sign (hi.frac <<< g) + signed lo.sign (shrcompress (lo.frac <<< g) (hi.exp - lo.exp).toNat)

/-- The compute, round and assemble stages of R60 for two finite non-zero operands, with `g` guard bits. -/
def addTriples (F : Fmt) (g : Nat) (x y : Triple) : Pattern F :=
  let hi := (orderByExp x y).1
  let lo := (orderByExp x y).2
  let acc := alignedSum g hi lo
  if acc = 0 then posZero F
  else roundPack F (decide (acc < 0)) acc.natAbs (hi.exp - F.FW - g)

/-- `ADD(fmt, a, b)` with `g` guard bits (R60). -/
def addWith (F : Fmt) (g : Nat) (a b : Pattern F) : Pattern F :=
  if isNaN F a || isNaN F b then qnan F
  else if isInf F a then
    if isInf F b && sign F a != sign F b then qnan F else a
  else if isInf F b then b
  else if isZero F a && isZero F b then zeroOf F (sign F a && sign F b)
  else if isZero F a then b
  else if isZero F b then a
  else addTriples F g (normalize F a) (normalize F b)

/-- `ADD(fmt, a, b)`, with the three guard bits of R60. -/
def add (F : Fmt) (a b : Pattern F) : Pattern F := addWith F Config.guardBits a b

/-- `SUB(fmt, a, b) = ADD(fmt, a, b ^ SIGN_MASK)` (R61). -/
def sub (F : Fmt) (a b : Pattern F) : Pattern F := add F a (b ^^^ signMask F)

/-- `add.128` (R60). -/
def execAdd128 (a b : BitVec 128) (s : State) : Answer := .next (s.accept (responseWord .f128 (add .f128 a b)))

/-- `add.256` (R60). -/
def execAdd256 (a b : BitVec 256) (s : State) : Answer := .next (s.accept (responseWord .f256 (add .f256 a b)))

/-- `sub.128` (R61). -/
def execSub128 (a b : BitVec 128) (s : State) : Answer := .next (s.accept (responseWord .f128 (sub .f128 a b)))

/-- `sub.256` (R61). -/
def execSub256 (a b : BitVec 256) (s : State) : Answer := .next (s.accept (responseWord .f256 (sub .f256 a b)))

end Sys2Proof.Machine
end

