-- ==== Sys2Proof/Machine/Flags.lean ====
section
/-! DEFINITION. Machine/Flags.lean: XFPU has no status flags (spec/10_state.md R12); the only flag-like word is the
classification word the class command returns (spec/40_classify_normalize.md R48). -/

namespace Sys2Proof.Machine

/-- `CLASS(fmt, a)`: bit 0 NaN, 1 infinity, 2 zero, 3 subnormal, 4 sign, 5 normal, the rest 0 (R48). -/
def classWord (F : Fmt) (a : Pattern F) : Pattern F :=
  BitVec.ofNat F.N
    ((isNaN F a).toNat + (isInf F a).toNat <<< 1 + (isZero F a).toNat <<< 2 + (isSubnormal F a).toNat <<< 3 +
      (sign F a).toNat <<< 4 + (isNormal F a).toNat <<< 5)

end Sys2Proof.Machine
end

