-- ==== Sys2Proof/Machine/Class.lean ====
section
/-! DEFINITION. Machine/Class.lean: the commands class.128, class.256 (spec/40_classify_normalize.md R48). -/

namespace Sys2Proof.Machine

/-- `class.128` (R48). -/
def execClass128 (a : BitVec 128) (s : State) : Answer := .next (s.accept (responseWord .f128 (classWord .f128 a)))

/-- `class.256` (R48). -/
def execClass256 (a : BitVec 256) (s : State) : Answer := .next (s.accept (responseWord .f256 (classWord .f256 a)))

end Sys2Proof.Machine
end

