-- ==== Sys2Proof/Machine/Mul.lean ====
section
/-! DEFINITION. Machine/Mul.lean: multiplication (spec/43_mul.md R70) and the commands mul.128, mul.256. -/

namespace Sys2Proof.Machine

/-- The compute, round and assemble stages of R70 for two finite non-zero operands: the exact product, rounded
once. -/
def mulTriples (F : Fmt) (x y : Triple) : Pattern F :=
  roundPack F (x.sign ^^ y.sign) (x.frac * y.frac) (x.exp + y.exp - 2 * F.FW)

/-- `MUL(fmt, a, b)` (R70). -/
def mul (F : Fmt) (a b : Pattern F) : Pattern F :=
  if isNaN F a || isNaN F b then qnan F
  else if isInf F a || isInf F b then
    if isZero F a || isZero F b then qnan F else infOf F (sign F a ^^ sign F b)
  else if isZero F a || isZero F b then zeroOf F (sign F a ^^ sign F b)
  else mulTriples F (normalize F a) (normalize F b)

/-- `mul.128` (R70). -/
def execMul128 (a b : BitVec 128) (s : State) : Answer := .next (s.accept (responseWord .f128 (mul .f128 a b)))

/-- `mul.256` (R70). -/
def execMul256 (a b : BitVec 256) (s : State) : Answer := .next (s.accept (responseWord .f256 (mul .f256 a b)))

end Sys2Proof.Machine
end

