-- ==== Sys2Proof/Machine/Fma.lean ====
section
/-! DEFINITION. Machine/Fma.lean: fused multiply-add (spec/46_fma.md R100, R103) and the commands fma.128,
fma.256. -/

namespace Sys2Proof.Machine

/-- A signed magnitude `(-1)^sign * mag * 2^scale`, a term of the fused sum (R100). -/
structure Term where
  sign : Bool
  mag : Nat
  scale : Int
deriving DecidableEq, Repr

/-- Step (2) of R100: the exact product, brought to exactly `2P` bits. -/
def productTerm (F : Fmt) (x y : Triple) : Term :=
  let pm := x.frac * y.frac
  let qp := x.exp + y.exp - 2 * F.FW
  if bitlen pm = 2 * F.P - 1 then { sign := x.sign ^^ y.sign, mag := pm <<< 1, scale := qp - 1 }
  else { sign := x.sign ^^ y.sign, mag := pm, scale := qp }

/-- Step (3) of R100: the addend, widened to exactly `2P` bits. -/
def addendTerm (F : Fmt) (z : Triple) : Term :=
  { sign := z.sign, mag := z.frac <<< F.P, scale := z.exp - F.FW - F.P }

/-- `(scale, mag) >= (scale, mag)`, first component first (R100 step (4), spec/00_scope.md R7). -/
def termGe (p z : Term) : Bool := decide (z.scale < p.scale) || (p.scale == z.scale && decide (z.mag ≤ p.mag))

/-- Step (4) of R100: the bigger term first. -/
def orderTerms (p z : Term) : Term × Term := if termGe p z then (p, z) else (z, p)

/-- Steps (5) to (9) of R100 on the bigger and the smaller term, with `g` guard bits. -/
def fuseTerms (F : Fmt) (g : Nat) (big small : Term) : Pattern F :=
  if big.sign != small.sign && (big.scale == small.scale && big.mag == small.mag) then posZero F
  else
    let B := big.mag <<< g
    let S := shrcompress (small.mag <<< g) (big.scale - small.scale).toNat
    roundPack F big.sign (if big.sign == small.sign then B + S else B - S) (big.scale - g)

/-- Steps (2) to (9) of R100 for three finite non-zero operands. -/
def fmaTriples (F : Fmt) (g : Nat) (x y z : Triple) : Pattern F :=
  let o := orderTerms (productTerm F x y) (addendTerm F z)
  fuseTerms F g o.1 o.2

/-- `FMA(fmt, x, y, z)` with `g` guard bits; step (1) is the fallback for special operands (R100, R103). -/
def fmaWith (F : Fmt) (g : Nat) (x y z : Pattern F) : Pattern F :=
  if isSpecial F x || (isSpecial F y || isSpecial F z) then
    if isInf F z && (isFinite F x && isFinite F y) then z
    else add F (mul F x y) z
  else fmaTriples F g (normalize F x) (normalize F y) (normalize F z)

/-- `FMA(fmt, x, y, z)`, with the three guard bits of R100. -/
def fma (F : Fmt) (x y z : Pattern F) : Pattern F := fmaWith F Config.guardBits x y z

/-- `fma.128` (R100). -/
def execFma128 (a b c : BitVec 128) (s : State) : Answer :=
  .next (s.accept (responseWord .f128 (fma .f128 a b c)))

/-- `fma.256` (R100). -/
def execFma256 (a b c : BitVec 256) (s : State) : Answer :=
  .next (s.accept (responseWord .f256 (fma .f256 a b c)))

end Sys2Proof.Machine
end

