-- ==== Sys2Proof/Machine/Quo.lean ====
section
/-! DEFINITION. Machine/Quo.lean: division (spec/44_quo.md R80) and the commands quo.128, quo.256. -/

namespace Sys2Proof.Machine

/-- The quotient of `n` by `d` with "the remainder is non-zero" ORed into bit 0 (R80). -/
def stickyDiv (n d : Nat) : Nat := if n % d != 0 then n / d ||| 1 else n / d

/-- The compute, round and assemble stages of R80 for two finite non-zero operands; a dividend fraction below the
divisor's is pre-shifted. -/
def quoTriples (F : Fmt) (x y : Triple) : Pattern F :=
  let small := decide (x.frac < y.frac)
  let fa := if small then x.frac <<< 1 else x.frac
  let e := if small then x.exp - y.exp - 1 else x.exp - y.exp
  roundPack F (x.sign ^^ y.sign) (stickyDiv (fa <<< (F.FW + 2)) y.frac) (e - F.FW - 2)

/-- `QUO(fmt, a, b)` (R80). -/
def quo (F : Fmt) (a b : Pattern F) : Pattern F :=
  if isNaN F a || isNaN F b then qnan F
  else if isInf F a then
    if isInf F b then qnan F else infOf F (sign F a ^^ sign F b)
  else if isInf F b then zeroOf F (sign F a ^^ sign F b)
  else if isZero F b then
    if isZero F a then qnan F else infOf F (sign F a ^^ sign F b)
  else if isZero F a then zeroOf F (sign F a ^^ sign F b)
  else quoTriples F (normalize F a) (normalize F b)

/-- `quo.128` (R80). -/
def execQuo128 (a b : BitVec 128) (s : State) : Answer := .next (s.accept (responseWord .f128 (quo .f128 a b)))

/-- `quo.256` (R80). -/
def execQuo256 (a b : BitVec 256) (s : State) : Answer := .next (s.accept (responseWord .f256 (quo .f256 a b)))

end Sys2Proof.Machine
end

