-- ==== Sys2Proof/Machine/Sqrt.lean ====
section
/-! DEFINITION. Machine/Sqrt.lean: square root (spec/45_sqrt.md R90, R91) and the commands sqrt.128, sqrt.256. -/

namespace Sys2Proof.Machine

/-- One step of the bit-by-bit root extraction on `(root, rem)`: bring down the bits `2i+1, 2i` of `v`, try
`4*root + 1` (R91). -/
def sqrtStep (v i : Nat) (st : Nat × Nat) : Nat × Nat :=
  let rem := (st.2 <<< 2) ||| ((v >>> (2 * i)) &&& 3)
  let trial := (st.1 <<< 2) ||| 1
  let root := st.1 <<< 1
  if rem ≥ trial then (root ||| 1, rem - trial) else (root, rem)

/-- The loop of R91 from bit `n - 1` down to bit 0. -/
def sqrtLoop (v : Nat) : Nat → Nat × Nat → Nat × Nat
  | 0, st => st
  | n + 1, st => sqrtLoop v n (sqrtStep v n st)

/-- `SqrtRem(v, nbits)`: the integer root and the remainder, for `v < 4^nbits` (R91). -/
def sqrtRem (v nbits : Nat) : Nat × Nat := sqrtLoop v nbits (0, 0)

/-- The compute, round and assemble stages of R90 for a positive finite non-zero operand; an odd exponent is made
even by doubling the fraction. -/
def sqrtTriple (F : Fmt) (x : Triple) : Pattern F :=
  let odd := x.exp % 2 == 1
  let f := if odd then x.frac <<< 1 else x.frac
  let e := if odd then x.exp - 1 else x.exp
  let rr := sqrtRem (f <<< (F.FW + 2)) (F.P + 1)
  roundPack F false ((rr.1 <<< 1) ||| (if rr.2 != 0 then 1 else 0)) (e / 2 - F.FW - 2)

/-- `SQRT(fmt, a)` (R90). -/
def sqrt (F : Fmt) (a : Pattern F) : Pattern F :=
  if isNaN F a then qnan F
  else if isZero F a then a
  else if sign F a then qnan F
  else if isInf F a then a
  else sqrtTriple F (normalize F a)

/-- `sqrt.128` (R90). -/
def execSqrt128 (a : BitVec 128) (s : State) : Answer := .next (s.accept (responseWord .f128 (sqrt .f128 a)))

/-- `sqrt.256` (R90). -/
def execSqrt256 (a : BitVec 256) (s : State) : Answer := .next (s.accept (responseWord .f256 (sqrt .f256 a)))

end Sys2Proof.Machine
end

