-- ==== Sys2Proof/Machine/Dispatch.lean ====
section
/-! DEFINITION. Machine/Dispatch.lean: one arm per command of spec/30_encoding.md R37: what an accepted command does
to the unit (spec/10_state.md R15, R16). -/

namespace Sys2Proof.Machine

def exec (i : Instr) (s : State) : Host.Outcome State Fault Refusal :=
  match i with
  | .add128 a b => Sys2Proof.Machine.execAdd128 a b s
  | .sub128 a b => Sys2Proof.Machine.execSub128 a b s
  | .mul128 a b => Sys2Proof.Machine.execMul128 a b s
  | .quo128 a b => Sys2Proof.Machine.execQuo128 a b s
  | .sqrt128 a => Sys2Proof.Machine.execSqrt128 a s
  | .fma128 a b c => Sys2Proof.Machine.execFma128 a b c s
  | .class128 a => Sys2Proof.Machine.execClass128 a s
  | .add256 a b => Sys2Proof.Machine.execAdd256 a b s
  | .sub256 a b => Sys2Proof.Machine.execSub256 a b s
  | .mul256 a b => Sys2Proof.Machine.execMul256 a b s
  | .quo256 a b => Sys2Proof.Machine.execQuo256 a b s
  | .sqrt256 a => Sys2Proof.Machine.execSqrt256 a s
  | .fma256 a b c => Sys2Proof.Machine.execFma256 a b c s
  | .class256 a => Sys2Proof.Machine.execClass256 a s

end Sys2Proof.Machine
end

