-- ==== Sys2Proof/Machine/Clock.lean ====
section
/-! DEFINITION. Machine/Clock.lean: one rising clock edge of the unit, for any queue capacity (spec/10_state.md R16,
R17; spec/70_reset_and_hazards.md R130, R133). -/

namespace Sys2Proof.Machine

/-- The command channel at edge `e`, after the response channel has moved the state to `t`: a reserved word offered
is refused (R39, R135 (b)); a command is executed when it is accepted (R16); nothing happens otherwise. `ready` is
`cmd_ready` at this edge. -/
def commandChannel (ready : Bool) (e : Edge) (t : State) : Answer :=
  if e.cmdValid then
    match decode e.cmd with
    | none => .refused (.reservedCommand e.cmd.op)
    | some i => if ready then exec i t else .next t
  else .next t

/-- One rising edge of a unit whose queue has capacity `depth`. A reset edge wins over everything (R130,
spec/60_exceptions.md R113 (d)); before the first one there is no step (R133); otherwise Deliver takes the head as
it was before the edge, and Accept appends (R17). -/
def clockEdge (depth : Nat) (e : Edge) (s : State) : Answer :=
  if e.rst then .next s.resetEdge
  else
    match s.phase with
    | .beforeFirstReset => .refused .beforeFirstReset
    | .running => commandChannel (s.cmdReady depth e) e (s.responseChannel e)

end Sys2Proof.Machine
end

