-- ==== Sys2Proof/Machine/Step.lean ====
section
/-! DEFINITION. Machine/Step.lean: one step of the machine: the coming clock edge (log entry 1). -/

namespace Sys2Proof.Machine

/-- One step: the next edge of the schedule, for a queue of capacity `Config.DEPTH`. -/
def step (s : State) : Host.Outcome State Fault Refusal := clockEdge Config.DEPTH s.nextEdge s.passEdge

/-- `s`, running, with the command whose bits are `w` offered and taken at the coming edge; whatever was scheduled
follows it. A command reaches XFPU only from its host (spec/10_state.md R11), so this stands for the host offering
it (log entry 1). -/
def State.withFetchWord (s : State) (nbits w : Nat) : State :=
  { s with
    phase := .running
    inputs := s.offerEdge Config.DEPTH (Command.ofNat (w % 2 ^ nbits)) :: s.inputs }

end Sys2Proof.Machine
end

