-- ==== Sys2Proof/Machine/Respond.lean ====
section
/-! DEFINITION. Machine/Respond.lean: `Exec(cmd)` written straight from spec/10_state.md R15, over the ports and
without the decoder. The step does not use it; claims hold the decoder and `exec` against it. -/

namespace Sys2Proof.Machine

/-- `fmt` of R15: `cmd.op[3]` selects the format. -/
def commandFmt (op : BitVec 4) : Fmt := if op.getLsbD 3 then .f256 else .f128

/-- `a = cmd.a[N-1:0]` of R15. -/
def portOperand (F : Fmt) (p : Word) : Pattern F := p.setWidth F.N

/-- `Exec(cmd)` of R15 in a given format, by the operation field; `none` where R15 says refuse. -/
def responseIn (F : Fmt) (o : Nat) (a b c : Pattern F) : Option Word :=
  match o with
  | 0 => some (responseWord F (add F a b))
  | 1 => some (responseWord F (sub F a b))
  | 2 => some (responseWord F (mul F a b))
  | 3 => some (responseWord F (quo F a b))
  | 4 => some (responseWord F (sqrt F a))
  | 5 => some (responseWord F (fma F a b c))
  | 6 => some (responseWord F (classWord F a))
  | _ => none

/-- `Exec(cmd)`, the function every command computes (R15). -/
def commandResponse (c : Command) : Option Word :=
  responseIn (commandFmt c.op) (c.op.extractLsb' 0 3).toNat (portOperand (commandFmt c.op) c.a)
    (portOperand (commandFmt c.op) c.b) (portOperand (commandFmt c.op) c.c)

end Sys2Proof.Machine
end

