-- ==== Sys2Proof/Machine/Value.lean ====
section
/-! DEFINITION. Machine/Value.lean: the values patterns and triples denote (spec/00_scope.md R9, spec/30_encoding.md
R33), and correct rounding stated without a datapath (spec/41_rounding.md R56). The step does not use this file;
claims are stated in its terms. -/

namespace Sys2Proof.Machine

/-- `(-1)^s`. -/
def signFactor (s : Bool) : ℚ := if s then -1 else 1

/-- `val(fmt, x)`, the value of a finite pattern (R33). Infinities and NaNs have no value; this gives them a
meaningless one. -/
def val (F : Fmt) (x : Pattern F) : ℚ :=
  if bexp F x = 0 then signFactor (sign F x) * frac F x * 2 ^ (F.EMIN - F.FW)
  else signFactor (sign F x) * (F.IMPLICIT + frac F x : Nat) * 2 ^ ((bexp F x : Int) - F.BIAS - F.FW)

/-- The value of a triple, `(-1)^s * f * 2^(e - FW)` (R9). -/
def tripleVal (F : Fmt) (t : Triple) : ℚ := signFactor t.sign * t.frac * 2 ^ (t.exp - F.FW)

/-- The value of an unrounded magnitude, `m * 2^q` (R9). -/
def magVal (m : Nat) (q : Int) : ℚ := m * 2 ^ q

/-- A finite non-zero pattern: the input of `Normalize` (R45). -/
def FiniteNonzero (F : Fmt) (x : Pattern F) : Prop := isFinite F x = true ∧ isZero F x = false

/-- `n` is the natural number nearest to `y`, the even one on a tie (R50, R56). -/
def NearestEven (y : ℝ) (n : ℕ) : Prop := |y - n| ≤ 1 / 2 ∧ (|y - n| = 1 / 2 → Even n)

/-- `E = max(floor(log2 X), EMIN)`, for a positive `X` (R56). -/
def GridExponent (F : Fmt) (X : ℝ) (E : ℤ) : Prop :=
  F.EMIN ≤ E ∧ X < 2 ^ (E + 1) ∧ ((2 : ℝ) ^ E ≤ X ∨ E = F.EMIN)

/-- What correct rounding is (R56): `r` is the pattern of sign `s` nearest to the positive real `X`, ties to even,
with overflow to infinity and gradual underflow. -/
def RoundsTo (F : Fmt) (s : Bool) (X : ℝ) (r : Pattern F) : Prop :=
  ∃ (E : ℤ) (n : ℕ), GridExponent F X E ∧ NearestEven (X / 2 ^ (E - F.FW)) n ∧
    (n = 0 → r = zeroOf F s) ∧
    ((2 : ℝ) ^ (F.EMAX + 1) ≤ n * 2 ^ (E - F.FW) → r = infOf F s) ∧
    (n ≠ 0 → (n : ℝ) * 2 ^ (E - F.FW) < 2 ^ (F.EMAX + 1) →
      isFinite F r = true ∧ sign F r = s ∧ (val F r : ℝ) = (signFactor s : ℝ) * n * 2 ^ (E - F.FW))

/-- The odd neighbour that stands for a magnitude with lost bits: `floor(y)` when `y` is a natural number, else
`floor(y) | 1` (R53). -/
def StickyOf (y : ℝ) (m : ℕ) : Prop :=
  ((m : ℝ) = y) ∨ (∃ n : ℕ, (n : ℝ) < y ∧ y < n + 1 ∧ m = n ||| 1)

end Sys2Proof.Machine
end

