-- ==== Sys2Proof/Safety.lean ====
section
/-! DEFINITION. Safety.lean: the terms claims are stated in: the invariant of the queue, what a run has accepted, runs
over an endless input with the progress rules (spec/70_reset_and_hazards.md R138) as assumptions on them, what it is
for a command to complete, and the special-value tables. -/

namespace Sys2Proof.Machine

/-- What holds of a running unit after every step: the queue is no longer than its capacity (R14), a response kept
on offer is there (R136 (a)), and every queued response is the response to some command (R14, R15). Nothing is said of
a unit that has not been reset (R133). -/
def Inv (s : State) : Prop :=
  s.phase = .running →
    s.pending.length ≤ Config.DEPTH ∧ (s.offered = true → s.pending ≠ []) ∧
      ∀ w ∈ s.pending, ∃ c : Command, commandResponse c = some w

/-- The response an Accept at the coming edge adds to the queue, none when there is no Accept (R16). -/
def acceptedNow (s : State) : List Word :=
  if s.passEdge.accepts Config.DEPTH s.nextEdge then (commandResponse s.nextEdge.cmd).toList else []

/-- The responses of the commands accepted in the first `k` steps from `s`, in order of acceptance. -/
def acceptedIn : Nat → State → List Word
  | 0, _ => []
  | k + 1, s =>
    match step s with
    | .next t => acceptedNow s ++ acceptedIn k t
    | _ => []

/-- No reset among the coming `k` edges. -/
def NoReset (k : Nat) (s : State) : Prop := ∀ e ∈ s.inputs.take k, e.rst = false

/-- The state after `n` edges of the endless input `env`, from `s`. -/
def runOn (env : Nat → Edge) (s : State) : Nat → Answer
  | 0 => .next s
  | n + 1 =>
    match runOn env s n with
    | .next t => clockEdge Config.DEPTH (env n) t
    | .fault r => .fault r
    | .refused r => .refused r

/-- The run never stops. -/
def Endless (env : Nat → Edge) (s : State) : Prop := ∀ n, ∃ t, runOn env s n = .next t

/-- Progress of the response channel (R138 (a)): a non-empty queue is offered after finitely many edges. -/
def OffersEventually (env : Nat → Edge) (s : State) : Prop :=
  ∀ n t, runOn env s n = .next t → t.pending ≠ [] →
    ∃ m u, n ≤ m ∧ runOn env s m = .next u ∧ u.rspValid (env m) = true

/-- Progress of the command channel (R138 (b)): a queue with room is ready after finitely many edges. -/
def ReadyEventually (env : Nat → Edge) (s : State) : Prop :=
  ∀ n t, runOn env s n = .next t → t.pending.length < Config.DEPTH →
    ∃ m u, n ≤ m ∧ runOn env s m = .next u ∧ u.cmdReady Config.DEPTH (env m) = true

/-- The host eventually takes every response offered (R138 (c)). -/
def TakesEventually (env : Nat → Edge) (s : State) : Prop :=
  ∀ n t, runOn env s n = .next t → t.rspValid (env n) = true → ∃ m, n ≤ m ∧ (env m).rspReady = true

/-- A command completed on `s` with the result `r`: its zero-extended response is at the tail of the queue, and
nothing else has changed (R14, R15, R16). -/
def Completes (F : Fmt) (s : State) (o : Answer) (r : Pattern F) : Prop :=
  o = .next { s with pending := s.pending ++ [r.setWidth 256] }

/-- `r` is the correct rounding of the non-zero real `X`, with `X`'s sign (spec/41_rounding.md R56). -/
def RoundsSigned (F : Fmt) (X : ℝ) (r : Pattern F) : Prop :=
  (0 < X → RoundsTo F false X r) ∧ (X < 0 → RoundsTo F true (-X) r)

/-- What ADD computes from finite operands that are not both zero, of exact sum `X` (spec/42_addsub.md R63). -/
def CorrectSum (F : Fmt) (X : ℝ) (r : Pattern F) : Prop := (X = 0 → r = posZero F) ∧ RoundsSigned F X r

/-- What MUL and QUO compute from finite operands whose exact result is `X`, with `s` the XOR of the operand signs
(spec/43_mul.md R72, spec/44_quo.md R82). -/
def CorrectProduct (F : Fmt) (s : Bool) (X : ℝ) (r : Pattern F) : Prop :=
  (X = 0 → r = zeroOf F s) ∧ (X ≠ 0 → RoundsTo F s |X| r)

/-- The special-value table of ADD (spec/42_addsub.md R65). -/
def AddTable (F : Fmt) (a b r : Pattern F) : Prop :=
  (isNaN F a = true ∨ isNaN F b = true → r = qnan F) ∧
  (isInf F a = true → isInf F b = true → sign F a ≠ sign F b → r = qnan F) ∧
  (isInf F a = true → isInf F b = true → sign F a = sign F b → r = a) ∧
  (isInf F a = true → isFinite F b = true → r = a) ∧
  (isFinite F a = true → isInf F b = true → r = b) ∧
  (isZero F a = true → isZero F b = true → r = zeroOf F (sign F a && sign F b)) ∧
  (isZero F a = true → FiniteNonzero F b → r = b) ∧
  (FiniteNonzero F a → isZero F b = true → r = a) ∧
  (FiniteNonzero F a → b = a ^^^ signMask F → r = posZero F)

/-- The special-value table of MUL (spec/43_mul.md R74). -/
def MulTable (F : Fmt) (a b r : Pattern F) : Prop :=
  (isNaN F a = true ∨ isNaN F b = true → r = qnan F) ∧
  (isInf F a = true → isInf F b = true → r = infOf F (sign F a ^^ sign F b)) ∧
  (isInf F a = true → isZero F b = true → r = qnan F) ∧
  (isInf F a = true → FiniteNonzero F b → r = infOf F (sign F a ^^ sign F b)) ∧
  (isZero F a = true → isInf F b = true → r = qnan F) ∧
  (isZero F a = true → isFinite F b = true → r = zeroOf F (sign F a ^^ sign F b)) ∧
  (FiniteNonzero F a → isInf F b = true → r = infOf F (sign F a ^^ sign F b)) ∧
  (FiniteNonzero F a → isZero F b = true → r = zeroOf F (sign F a ^^ sign F b)) ∧
  (FiniteNonzero F a → FiniteNonzero F b → sign F r = (sign F a ^^ sign F b))

/-- The special-value table of QUO (spec/44_quo.md R83). -/
def QuoTable (F : Fmt) (a b r : Pattern F) : Prop :=
  (isNaN F a = true ∨ isNaN F b = true → r = qnan F) ∧
  (isInf F a = true → isInf F b = true → r = qnan F) ∧
  (isInf F a = true → isFinite F b = true → r = infOf F (sign F a ^^ sign F b)) ∧
  (isFinite F a = true → isInf F b = true → r = zeroOf F (sign F a ^^ sign F b)) ∧
  (isZero F a = true → isZero F b = true → r = qnan F) ∧
  (isZero F a = true → FiniteNonzero F b → r = zeroOf F (sign F a ^^ sign F b)) ∧
  (FiniteNonzero F a → isZero F b = true → r = infOf F (sign F a ^^ sign F b)) ∧
  (FiniteNonzero F a → FiniteNonzero F b → sign F r = (sign F a ^^ sign F b))

/-- The corner cases of SQRT (spec/45_sqrt.md R90). -/
def SqrtTable (F : Fmt) (a r : Pattern F) : Prop :=
  (isNaN F a = true → r = qnan F) ∧
  (isZero F a = true → r = a) ∧
  (sign F a = true → isZero F a = false → r = qnan F) ∧
  (isInf F a = true → sign F a = false → r = a)

/-- FMA with a special operand (spec/46_fma.md R103): MUL then ADD but for a finite product with an infinite addend,
and then the table row by row. -/
def FmaTable (F : Fmt) (x y z r : Pattern F) : Prop :=
  (isSpecial F x = true ∨ isSpecial F y = true ∨ isSpecial F z = true →
    ¬(isFinite F x = true ∧ isFinite F y = true ∧ isInf F z = true) → r = add F (mul F x y) z) ∧
  (isNaN F x = true ∨ isNaN F y = true ∨ isNaN F z = true → r = qnan F) ∧
  (isZero F x = true ∧ isInf F y = true ∨ isInf F x = true ∧ isZero F y = true → r = qnan F) ∧
  (isInf F x = true ∧ isZero F y = false ∨ isInf F y = true ∧ isZero F x = false →
    isNaN F x = false → isNaN F y = false → isNaN F z = false →
      r = if isInf F z && sign F z != (sign F x ^^ sign F y) then qnan F
          else infOf F (sign F x ^^ sign F y)) ∧
  (isFinite F x = true → isFinite F y = true → isInf F z = true → r = z) ∧
  (isFinite F x = true → isFinite F y = true → isZero F x = true ∨ isZero F y = true → FiniteNonzero F z → r = z) ∧
  (isFinite F x = true → isFinite F y = true → isZero F x = true ∨ isZero F y = true → isZero F z = true →
    r = zeroOf F ((sign F x ^^ sign F y) && sign F z)) ∧
  (FiniteNonzero F x → FiniteNonzero F y → isZero F z = true →
    r = if isZero F (mul F x y) then zeroOf F ((sign F x ^^ sign F y) && sign F z) else mul F x y)

end Sys2Proof.Machine
end

