-- ==== Sys2Proof/Certificates/Slice0/Obligations.lean ====
section
/-! DEFINITION. Certificates/Slice0/Obligations.lean: the statements for the provers. Each docstring says which rule
of spec/ it formalises. -/

open Sys2Proof Sys2Proof.Machine

/-! ### Commands and their encoding -/

/-- Each command word of the opcode map, written out bit by bit, decodes to its command with the operands from the
named ports, and the two reserved words decode to nothing (R37, R39). -/
def Obligations.CommandWordsDecodeAsTheMapSays : Prop :=
  ∀ a b c : Word,
    decode ⟨0b0000#4, a, b, c⟩ = some (.add128 (a.setWidth 128) (b.setWidth 128)) ∧
    decode ⟨0b0001#4, a, b, c⟩ = some (.sub128 (a.setWidth 128) (b.setWidth 128)) ∧
    decode ⟨0b0010#4, a, b, c⟩ = some (.mul128 (a.setWidth 128) (b.setWidth 128)) ∧
    decode ⟨0b0011#4, a, b, c⟩ = some (.quo128 (a.setWidth 128) (b.setWidth 128)) ∧
    decode ⟨0b0100#4, a, b, c⟩ = some (.sqrt128 (a.setWidth 128)) ∧
    decode ⟨0b0101#4, a, b, c⟩ = some (.fma128 (a.setWidth 128) (b.setWidth 128) (c.setWidth 128)) ∧
    decode ⟨0b0110#4, a, b, c⟩ = some (.class128 (a.setWidth 128)) ∧
    decode ⟨0b0111#4, a, b, c⟩ = none ∧
    decode ⟨0b1000#4, a, b, c⟩ = some (.add256 a b) ∧
    decode ⟨0b1001#4, a, b, c⟩ = some (.sub256 a b) ∧
    decode ⟨0b1010#4, a, b, c⟩ = some (.mul256 a b) ∧
    decode ⟨0b1011#4, a, b, c⟩ = some (.quo256 a b) ∧
    decode ⟨0b1100#4, a, b, c⟩ = some (.sqrt256 a) ∧
    decode ⟨0b1101#4, a, b, c⟩ = some (.fma256 a b c) ∧
    decode ⟨0b1110#4, a, b, c⟩ = some (.class256 a) ∧
    decode ⟨0b1111#4, a, b, c⟩ = none

/-- Decode and encode agree: every instruction, encoded over any contents of the bits it does not use, decodes to
itself, and so does the 772-bit number that carries it (R36, R37; the number's layout is the model's, log entry 10). -/
def Obligations.DecodeUndoesEncode : Prop :=
  ∀ (i : Instr) (j : Command),
    decode (encodeOver j i) = some i ∧ decodeTableWord 772 (encodeOver j i).toNat = some i

/-- A command decodes exactly when its word is not reserved, and then it is the encoding of what it decodes to over
its own unused bits: no named bit is dropped (R36, R39). -/
def Obligations.DecodeReadsEveryNamedBit : Prop :=
  ∀ c : Command,
    (decode c = none ↔ reservedWord c.op = true) ∧ ∀ i, decode c = some i → encodeOver c i = c

/-- `exec` of the decoded command appends exactly R15's `Exec(cmd)` to the queue and changes nothing else, and R15
gives a response exactly to the commands that decode. -/
def Obligations.ExecIsTheSpecifiedResponse : Prop :=
  ∀ c : Command,
    (decode c = none ↔ commandResponse c = none) ∧
    ∀ i, decode c = some i → ∃ w, commandResponse c = some w ∧
      ∀ s : State, exec i s = .next { s with pending := s.pending ++ [w] }

/-- Every one of the fourteen commands completes in every state with one response word that depends on the command
alone, and leaves everything but the queue's tail unchanged: add, sub, mul, quo, sqrt, fma and class, in both formats
(R110, R25 (b)). -/
def Obligations.EveryCommandCompletesAlike : Prop :=
  ∀ i : Instr, ∃ w : Word, ∀ s : State, exec i s = .next { s with pending := s.pending ++ [w] }

/-- Bits a command does not use do not affect its response (R15): filling them with those of any other command
changes nothing. -/
def Obligations.UnusedBitsDoNotMatter : Prop :=
  ∀ (c j : Command) (i : Instr), decode c = some i → commandResponse (encodeOver j i) = commandResponse c

/-- The response to a command of format F128 has zeros above bit 127 (R15, R21). -/
def Obligations.NarrowResponsesAreZeroExtended : Prop :=
  ∀ (c : Command) (w : Word), c.op.getLsbD 3 = false → commandResponse c = some w → w.extractLsb' 128 128 = 0#128

/-! ### The clock edge -/

/-- A step runs the decoded command: at an edge where a command is accepted, the step is `exec` of what its ports
decode to, on the state after the response channel has moved (R16, R17). -/
def Obligations.StepRunsTheAcceptedCommand : Prop :=
  ∀ (s : State) (i : Instr), s.phase = .running → s.nextEdge.rst = false → s.nextEdge.cmdValid = true →
    decode s.nextEdge.cmd = some i → s.passEdge.cmdReady Config.DEPTH s.nextEdge = true →
    step s = exec i (s.passEdge.responseChannel s.nextEdge)

/-- The whole of one edge without reset, as an equation: a Deliver takes the head of the queue as it was before the
edge, an Accept appends its response, a response offered and not taken stays offered (R16, R17, R136). The fields
`offered`, `taken` and `inputs` are the model's own (log entries 4, 5, 1). -/
def Obligations.EdgeMovesTheQueue : Prop :=
  ∀ s : State, s.phase = .running → s.nextEdge.rst = false →
    (s.nextEdge.cmdValid = true → reservedWord s.nextEdge.cmd.op = false) →
    step s = .next
      { pending := (if s.delivers s.nextEdge then s.pending.tail else s.pending) ++ acceptedNow s
        offered := s.rspValid s.nextEdge && !s.nextEdge.rspReady
        phase := .running
        taken := s.taken ++ (if s.delivers s.nextEdge then s.pending.head?.toList else [])
        inputs := s.inputs.tail }

/-- A running unit stops only when the host offers a reserved command word without reset, and then it always stops
(R39, R116, R135 (b)). That an unaccepted offer stops it too is log entry 7. -/
def Obligations.OnlyReservedWordsStopTheUnit : Prop :=
  ∀ s : State, s.phase = .running →
    ((∀ t, step s ≠ .next t) ↔
      (s.nextEdge.rst = false ∧ s.nextEdge.cmdValid = true ∧
        (s.nextEdge.cmd.op = 0x7#4 ∨ s.nextEdge.cmd.op = 0xF#4))) ∧
    (s.nextEdge.rst = false → s.nextEdge.cmdValid = true → reservedWord s.nextEdge.cmd.op = true →
      step s = .refused (.reservedCommand s.nextEdge.cmd.op))

/-- A reset edge empties the queue whatever its contents and whatever the handshakes, in every state, and both
handshake outputs are 0 at it (R130; that the first reset edge is no exception to "While `rst = 1` the unit drives
`cmd_ready = 0` and `rsp_valid = 0`" is the model's reading, log entry 6); what was taken stays taken (R131). The fields
`offered`, `phase`, `taken` and `inputs` are the model's own (log entries 4, 6, 5, 1). -/
def Obligations.ResetEdgeEmptiesTheQueue : Prop :=
  ∀ s : State, s.nextEdge.rst = true →
    step s = .next { s with pending := [], offered := false, phase := .running, inputs := s.inputs.tail } ∧
    s.rspValid s.nextEdge = false ∧ ∀ depth, s.cmdReady depth s.nextEdge = false

/-- Before the first reset edge the unit has no step (R133); that this is a refusal of its own name, told by the field
`phase`, is the model's form of it (log entry 6). -/
def Obligations.NoStepBeforeTheFirstReset : Prop :=
  ∀ s : State, s.phase = .beforeFirstReset → s.nextEdge.rst = false → step s = .refused .beforeFirstReset

/-- After reset the queue is empty and no response is offered, whatever the edge (R19). That the unit runs is the value
of the model's own field `phase` (log entry 6). -/
def Obligations.ResetStateIsEmpty : Prop :=
  State.reset.pending = [] ∧ State.reset.phase = .running ∧ ∀ e, State.reset.rspValid e = false

/-- The invariant holds after reset. -/
def Obligations.QueueInvariantHoldsAtReset : Prop := Inv State.reset

/-- Every step keeps the invariant: the queue of a running unit stays within its capacity, an offer stays backed by
a response, and every queued response is some command's (R14, R15, R16, R136). -/
def Obligations.EveryStepKeepsQueueInvariant : Prop :=
  ∀ s t : State, Inv s → step s = .next t → Inv t

/-- What follows a reset edge does not depend on what went before it (R131, R132): two units given the same inputs
with reset first have the same queue after every further number of steps and deliver the same responses from
there. The spec marks R132 as its own inference from R130 and R15. -/
def Obligations.ResetForgetsThePast : Prop :=
  ∀ (s s' t : State) (k : Nat), s.inputs = s'.inputs → s.nextEdge.rst = true →
    Host.Core.run core (k + 1) s = .next t →
    ∃ t' l, Host.Core.run core (k + 1) s' = .next t' ∧ t'.pending = t.pending ∧ t'.offered = t.offered ∧
      t.taken = s.taken ++ l ∧ t'.taken = s'.taken ++ l

/-- `cmd_ready` of a running unit is never 1 without room: the queue is shorter than its capacity, or it is at its
capacity and a Deliver happens at the same edge (R16). A running unit only: before the first reset edge R133
leaves it unspecified, and what the model does there is its own choice (log entry 6). -/
def Obligations.ReadyOnlyWithRoom : Prop :=
  ∀ (depth : Nat) (s : State) (e : Edge), s.phase = .running → s.cmdReady depth e = true →
    e.rst = false ∧ (s.pending.length < depth ∨
      s.pending.length = depth ∧ s.rspValid e = true ∧ e.rspReady = true)

/-- `rsp_valid` of a running unit is 1 only on a non-empty queue, `rsp_data` is then its head, and `rsp_valid` does
not depend on `rsp_ready` (R17, R136 (b), (c)). A running unit only: before the first reset edge R133 leaves both
unspecified, and what the model does there is its own choice (log entry 6). -/
def Obligations.OffersOnlyTheHead : Prop :=
  ∀ (s : State) (e : Edge), s.phase = .running →
    (s.rspValid e = true → e.rst = false ∧ ∃ w, s.pending.head? = some w ∧ s.rspData e = some w) ∧
    ∀ b, s.rspValid { e with rspReady := b } = s.rspValid e

/-- A response offered and not taken is offered again at the next edge, with the same data, unless there is a reset
(R136 (a)). -/
def Obligations.OfferedResponseIsHeld : Prop :=
  ∀ s t : State, step s = .next t → s.rspValid s.nextEdge = true → s.nextEdge.rspReady = false →
    t.nextEdge.rst = false →
    t.rspValid t.nextEdge = true ∧ t.rspData t.nextEdge = s.rspData s.nextEdge

/-- Every legal behaviour of the unit at an edge is one of the model's (R16, R17, R136, U2): any pair of handshake
outputs the rules allow is what the unit drives under some wishes, with the host's side unchanged. That the unit's
choice is two wishes of the edge is the model's DESIGN CHOICE (log entry 3). That before the first reset edge every pair
occurs is the model's DESIGN CHOICE too (log entry 6): the spec only calls the outputs unspecified there. -/
def Obligations.EveryLegalHandshakeOccurs : Prop :=
  ∀ (depth : Nat) (s : State) (e : Edge) (ready valid : Bool), e.rst = false →
    (s.phase = .running →
      (valid = true → s.pending ≠ []) ∧ (s.offered = true → s.pending ≠ [] → valid = true) ∧
      (ready = true → s.pending.length < depth ∨ s.pending.length = depth ∧ valid = true ∧ e.rspReady = true)) →
    ∃ wr wv, s.rspValid { e with wishReady := wr, wishValid := wv } = valid ∧
      s.cmdReady depth { e with wishReady := wr, wishValid := wv } = ready

/-- Responses come in the order of acceptance, one per accepted command, none dropped or duplicated, over any number
of steps without reset (R25 (a)): what was taken, followed by what is queued, grows by exactly the responses of the
commands accepted. -/
def Obligations.ResponsesComeInOrderOfAcceptance : Prop :=
  ∀ (k : Nat) (s t : State), s.phase = .running → NoReset k s → Host.Core.run core k s = .next t →
    t.taken ++ t.pending = s.taken ++ s.pending ++ acceptedIn k s ∧ s.taken <+: t.taken

/-- No response is lost in an endless run without reset in which the unit makes progress and the host eventually
takes what is offered: everything queued at any moment is taken, in order, after finitely many edges (R138 (a), (c)). -/
def Obligations.EveryQueuedResponseIsTaken : Prop :=
  ∀ (env : Nat → Edge) (s : State), s.phase = .running → (∀ n, (env n).rst = false) → Endless env s →
    OffersEventually env s → TakesEventually env s →
    ∀ n t, runOn env s n = .next t → ∃ m u, n ≤ m ∧ runOn env s m = .next u ∧ (t.taken ++ t.pending) <+: u.taken

/-- A command offered persistently is accepted after finitely many edges (R138 (b), (c)). -/
def Obligations.PersistentCommandIsAccepted : Prop :=
  ∀ (env : Nat → Edge) (s : State), Inv s → s.phase = .running → (∀ n, (env n).rst = false) → Endless env s →
    OffersEventually env s → TakesEventually env s → ReadyEventually env s →
    ∀ n, (∀ m, n ≤ m → (env m).cmdValid = true) →
      ∃ m u, n ≤ m ∧ runOn env s m = .next u ∧ u.accepts Config.DEPTH (env m) = true

/-! ### Values, classes, triples -/

/-- The special patterns and masks of the Format Descriptor, as R31, R34 and R35 print them. -/
def Obligations.SpecialPatternsAreAsPrinted : Prop :=
  zeroOf .f128 false = 0x00000000000000000000000000000000#128 ∧
  zeroOf .f128 true = 0x80000000000000000000000000000000#128 ∧
  infOf .f128 false = 0x7FFF0000000000000000000000000000#128 ∧
  infOf .f128 true = 0xFFFF0000000000000000000000000000#128 ∧
  qnan .f128 = 0x7FFF8000000000000000000000000000#128 ∧
  signMask .f128 = 0x80000000000000000000000000000000#128 ∧
  expMask .f128 = 0x7FFF0000000000000000000000000000#128 ∧
  fracMask .f128 = 0x0000FFFFFFFFFFFFFFFFFFFFFFFFFFFF#128 ∧
  Fmt.IMPLICIT .f128 = 0x00010000000000000000000000000000 ∧
  Fmt.BIAS .f128 = 0x3FFF ∧
  zeroOf .f256 false = 0x0000000000000000000000000000000000000000000000000000000000000000#256 ∧
  zeroOf .f256 true = 0x8000000000000000000000000000000000000000000000000000000000000000#256 ∧
  infOf .f256 false = 0x7FFFF00000000000000000000000000000000000000000000000000000000000#256 ∧
  infOf .f256 true = 0xFFFFF00000000000000000000000000000000000000000000000000000000000#256 ∧
  qnan .f256 = 0x7FFFF80000000000000000000000000000000000000000000000000000000000#256 ∧
  signMask .f256 = 0x8000000000000000000000000000000000000000000000000000000000000000#256 ∧
  expMask .f256 = 0x7FFFF00000000000000000000000000000000000000000000000000000000000#256 ∧
  fracMask .f256 = 0x00000FFFFFFFFFFFFFFFFFFFFFFFFFFFFFFFFFFFFFFFFFFFFFFFFFFFFFFFFFFF#256 ∧
  Fmt.IMPLICIT .f256 = 0x0000100000000000000000000000000000000000000000000000000000000000 ∧
  Fmt.BIAS .f256 = 0x3FFFF

/-- Every pattern is in exactly one class, and the class does not depend on the sign (R32, R44). The spec marks the
last sentence of R44 as its own inference from R32. -/
def Obligations.ExactlyOneClass : Prop :=
  ∀ (F : Fmt) (x : Pattern F),
    (isNaN F x).toNat + (isInf F x).toNat + (isZero F x).toNat + (isSubnormal F x).toNat + (isNormal F x).toNat = 1 ∧
    (isFinite F x = (isZero F x || (isSubnormal F x || isNormal F x))) ∧
    isNaN F (x ^^^ signMask F) = isNaN F x ∧ isInf F (x ^^^ signMask F) = isInf F x ∧
    isZero F (x ^^^ signMask F) = isZero F x ∧ isSubnormal F (x ^^^ signMask F) = isSubnormal F x ∧
    isNormal F (x ^^^ signMask F) = isNormal F x ∧ sign F (x ^^^ signMask F) = !sign F x

/-- `class.128` and `class.256` complete with a word whose low six bits are the classifier's outputs and whose other
bits are 0, exactly one of bits 0, 1, 2, 3, 5 being set (R48). -/
def Obligations.ClassReportsTheClassifier : Prop :=
  (∀ (a : BitVec 128) (s : State), ∃ r : BitVec 128, Completes .f128 s (exec (.class128 a) s) r ∧
    r.getLsbD 0 = isNaN .f128 a ∧ r.getLsbD 1 = isInf .f128 a ∧ r.getLsbD 2 = isZero .f128 a ∧
    r.getLsbD 3 = isSubnormal .f128 a ∧ r.getLsbD 4 = sign .f128 a ∧ r.getLsbD 5 = isNormal .f128 a ∧
    (∀ n, 6 ≤ n → r.getLsbD n = false) ∧
    (r.getLsbD 0).toNat + (r.getLsbD 1).toNat + (r.getLsbD 2).toNat + (r.getLsbD 3).toNat + (r.getLsbD 5).toNat = 1) ∧
  (∀ (a : BitVec 256) (s : State), ∃ r : BitVec 256, Completes .f256 s (exec (.class256 a) s) r ∧
    r.getLsbD 0 = isNaN .f256 a ∧ r.getLsbD 1 = isInf .f256 a ∧ r.getLsbD 2 = isZero .f256 a ∧
    r.getLsbD 3 = isSubnormal .f256 a ∧ r.getLsbD 4 = sign .f256 a ∧ r.getLsbD 5 = isNormal .f256 a ∧
    (∀ n, 6 ≤ n → r.getLsbD n = false) ∧
    (r.getLsbD 0).toNat + (r.getLsbD 1).toNat + (r.getLsbD 2).toNat + (r.getLsbD 3).toNat + (r.getLsbD 5).toNat = 1)

/-- Normalization keeps the value and the sign, brings the leading one to the implicit bit, keeps the exponent in the
stated range, and computes both parts as the rule writes them, for normal and for subnormal patterns (R45). -/
def Obligations.NormalizeKeepsTheValue : Prop :=
  ∀ (F : Fmt) (x : Pattern F), FiniteNonzero F x →
    (normalize F x).sign = sign F x ∧
    (bexp F x ≠ 0 →
      (normalize F x).exp = bexp F x - F.BIAS ∧ (normalize F x).frac = F.IMPLICIT ||| frac F x) ∧
    (bexp F x = 0 →
      (normalize F x).exp = bitlen (frac F x) - (F.BIAS + F.FW) ∧
      (normalize F x).frac = frac F x <<< (F.FW + 1 - bitlen (frac F x)) ∧
      1 ≤ bitlen (frac F x) ∧ bitlen (frac F x) ≤ F.FW) ∧
    2 ^ F.FW ≤ (normalize F x).frac ∧ (normalize F x).frac < 2 ^ F.P ∧
    F.EMIN - F.FW ≤ (normalize F x).exp ∧ (normalize F x).exp ≤ F.EMAX ∧
    tripleVal F (normalize F x) = val F x

/-- Two finite non-zero patterns with equal triples are equal (R46). -/
def Obligations.NormalizeIsInjective : Prop :=
  ∀ (F : Fmt) (x y : Pattern F), FiniteNonzero F x → FiniteNonzero F y → normalize F x = normalize F y → x = y

/-! ### The rounding engine -/

/-- RNE is round to nearest, ties to even, and monotonic in its argument (R50). -/
def Obligations.RneIsNearestEven : Prop :=
  ∀ v k : Nat, 1 ≤ k →
    NearestEven ((v : ℝ) / 2 ^ k) (rne v k) ∧ (v ≤ 2 ^ (k - 1) → rne v k = 0) ∧ ∀ v', v ≤ v' → rne v k ≤ rne v' k

/-- The carry out of rounding (R51): the rounded value has the kept length, or the kept bits were all ones and it is
the next power of two. -/
def Obligations.RneCarriesOnlyFromAllOnes : Prop :=
  ∀ v k : Nat, 1 ≤ k → k < bitlen v →
    bitlen (rne v k) = bitlen v - k ∨
      (v >>> k = 2 ^ (bitlen v - k) - 1 ∧ rne v k = 2 ^ (bitlen v - k) ∧ bitlen (rne v k) = bitlen v - k + 1)

/-- The sticky shift ORs every lost bit into bit 0 of the shifted value: it holds the odd neighbour of the exact
shifted value, is the identity for a shift by nothing, 0 on 0, and 1 when every set bit is lost (R52). -/
def Obligations.ShrcompressIsSticky : Prop :=
  ∀ v d : Nat, shrcompress v d = (v >>> d ||| if v % 2 ^ d ≠ 0 then 1 else 0) ∧
    StickyOf ((v : ℝ) / 2 ^ d) (shrcompress v d) ∧ shrcompress v 0 = v ∧ shrcompress 0 d = 0 ∧
    (v ≠ 0 → bitlen v ≤ d → shrcompress v d = 1)

/-- A sticky bit may stand for the lost bits when at least two bits are dropped (R53): rounding the odd neighbour
rounds the exact magnitude. The spec marks R53 as its own inference from R50 and R52. -/
def Obligations.StickyBitRoundsTheExactValue : Prop :=
  ∀ (y : ℝ) (m k : Nat), 0 < y → StickyOf y m → 2 ≤ k → NearestEven (y / 2 ^ k) (rne m k)

/-- What RoundPack computes (R56): the magnitude, exact or with a sticky bit under the condition of R53, correctly
rounded once. The spec marks R53 and R56 as its own inferences from R50, R52 and R54. -/
def Obligations.RoundPackRoundsCorrectly : Prop :=
  ∀ (F : Fmt) (s : Bool) (y : ℝ) (m : Nat) (q : Int), 0 < y → StickyOf y m →
    ((m : ℝ) = y ∨ 2 ≤ dropCount F m q) → RoundsTo F s (y * 2 ^ q) (roundPack F s m q)

/-- The result of RoundPack has the sign it is given and is never a NaN (R54). -/
def Obligations.RoundPackKeepsTheSign : Prop :=
  ∀ (F : Fmt) (s : Bool) (m : Nat) (q : Int), 0 < m →
    sign F (roundPack F s m q) = s ∧ isNaN F (roundPack F s m q) = false

/-- The overflow threshold (R55): an exact magnitude gives the infinity of its sign exactly when it is at least
`(2^P - 1/2) * 2^(EMAX - FW)`. -/
def Obligations.OverflowThresholdIsExact : Prop :=
  ∀ (F : Fmt) (s : Bool) (m : Nat) (q : Int), 0 < m →
    (roundPack F s m q = infOf F s ↔ ((2 : ℚ) ^ F.P - 1 / 2) * 2 ^ (F.EMAX - F.FW) ≤ magVal m q)

/-! ### Addition and subtraction -/

/-- `add` and `sub` complete with the exact sum or difference correctly rounded, `+0` when it is exactly zero, for
finite operands that are not both zero (R63). The spec marks R63 and R56 as its own inferences from R60, R61 and
R54. -/
def Obligations.AddSubRoundCorrectly : Prop :=
  (∀ (a b : BitVec 128) (s : State), isFinite .f128 a = true → isFinite .f128 b = true →
    (isZero .f128 a && isZero .f128 b) = false →
    (∃ r, Completes .f128 s (exec (.add128 a b) s) r ∧ CorrectSum .f128 ((val .f128 a + val .f128 b : ℚ) : ℝ) r) ∧
    (∃ r, Completes .f128 s (exec (.sub128 a b) s) r ∧ CorrectSum .f128 ((val .f128 a - val .f128 b : ℚ) : ℝ) r)) ∧
  (∀ (a b : BitVec 256) (s : State), isFinite .f256 a = true → isFinite .f256 b = true →
    (isZero .f256 a && isZero .f256 b) = false →
    (∃ r, Completes .f256 s (exec (.add256 a b) s) r ∧ CorrectSum .f256 ((val .f256 a + val .f256 b : ℚ) : ℝ) r) ∧
    (∃ r, Completes .f256 s (exec (.sub256 a b) s) r ∧ CorrectSum .f256 ((val .f256 a - val .f256 b : ℚ) : ℝ) r))

/-- The special-value table of ADD, and of SUB read with the second operand's sign inverted (R65): each command
completes with the tabulated result. The spec marks R65 as its own inference from R60. -/
def Obligations.AddSubFollowTheTable : Prop :=
  (∀ (a b : BitVec 128) (s : State),
    (∃ r, Completes .f128 s (exec (.add128 a b) s) r ∧ AddTable .f128 a b r) ∧
    (∃ r, Completes .f128 s (exec (.sub128 a b) s) r ∧ AddTable .f128 a (b ^^^ signMask .f128) r)) ∧
  (∀ (a b : BitVec 256) (s : State),
    (∃ r, Completes .f256 s (exec (.add256 a b) s) r ∧ AddTable .f256 a b r) ∧
    (∃ r, Completes .f256 s (exec (.sub256 a b) s) r ∧ AddTable .f256 a (b ^^^ signMask .f256) r))

/-- ADD is commutative bit for bit on all patterns, NaNs and infinities included; SUB is not (R64). The spec marks
R64 as its own inference from R60. -/
def Obligations.AdditionCommutes : Prop :=
  ∀ F : Fmt, (∀ a b : Pattern F, add F a b = add F b a) ∧ ∃ a b : Pattern F, sub F a b ≠ sub F b a

/-- A sum of magnitude below the smallest normal is exact (R63). The spec marks R63 as its own inference from R60. -/
def Obligations.SmallSumsAreExact : Prop :=
  ∀ (F : Fmt) (a b : Pattern F), isFinite F a = true → isFinite F b = true →
    |val F a + val F b| < 2 ^ F.EMIN →
    isFinite F (add F a b) = true ∧ val F (add F a b) = val F a + val F b

/-- The corner cases of SUB (R61): `x - x = +0` for every finite `x`, and exchanging the operands changes the sign
bit only, unless the result is a NaN or a zero. -/
def Obligations.SubtractionIsAntisymmetric : Prop :=
  ∀ (F : Fmt) (a b : Pattern F),
    (isFinite F a = true → sub F a a = posZero F) ∧
    (isNaN F (sub F a b) = false → isZero F (sub F a b) = false → sub F b a = sub F a b ^^^ signMask F)

/-! ### Multiplication and division -/

/-- `mul` completes with the exact product correctly rounded, its sign the XOR of the operand signs in every case
(R72). The spec marks R72 and R56 as its own inferences from R70 and R54. -/
def Obligations.MulRoundsCorrectly : Prop :=
  (∀ (a b : BitVec 128) (s : State), isFinite .f128 a = true → isFinite .f128 b = true →
    ∃ r, Completes .f128 s (exec (.mul128 a b) s) r ∧ sign .f128 r = (sign .f128 a ^^ sign .f128 b) ∧
      CorrectProduct .f128 (sign .f128 a ^^ sign .f128 b) ((val .f128 a * val .f128 b : ℚ) : ℝ) r) ∧
  (∀ (a b : BitVec 256) (s : State), isFinite .f256 a = true → isFinite .f256 b = true →
    ∃ r, Completes .f256 s (exec (.mul256 a b) s) r ∧ sign .f256 r = (sign .f256 a ^^ sign .f256 b) ∧
      CorrectProduct .f256 (sign .f256 a ^^ sign .f256 b) ((val .f256 a * val .f256 b : ℚ) : ℝ) r)

/-- The special-value table of MUL (R74): the command completes with the tabulated result. The spec marks R74 as its
own inference from R70. -/
def Obligations.MulFollowsTheTable : Prop :=
  (∀ (a b : BitVec 128) (s : State), ∃ r, Completes .f128 s (exec (.mul128 a b) s) r ∧ MulTable .f128 a b r) ∧
  (∀ (a b : BitVec 256) (s : State), ∃ r, Completes .f256 s (exec (.mul256 a b) s) r ∧ MulTable .f256 a b r)

/-- MUL is commutative bit for bit on all patterns, NaNs and infinities included (R73). The spec marks R73 as its
own inference from R70. -/
def Obligations.MultiplicationCommutes : Prop :=
  ∀ (F : Fmt) (a b : Pattern F), mul F a b = mul F b a

/-- `quo` completes with the exact quotient correctly rounded, for a finite dividend and a finite non-zero divisor,
its sign the XOR of the operand signs in every case; QUO is not commutative (R82). The spec marks R82 and R56 as
its own inferences from R80 and R54. -/
def Obligations.QuoRoundsCorrectly : Prop :=
  (∀ (a b : BitVec 128) (s : State), isFinite .f128 a = true → FiniteNonzero .f128 b →
    ∃ r, Completes .f128 s (exec (.quo128 a b) s) r ∧ sign .f128 r = (sign .f128 a ^^ sign .f128 b) ∧
      CorrectProduct .f128 (sign .f128 a ^^ sign .f128 b) ((val .f128 a / val .f128 b : ℚ) : ℝ) r) ∧
  (∀ (a b : BitVec 256) (s : State), isFinite .f256 a = true → FiniteNonzero .f256 b →
    ∃ r, Completes .f256 s (exec (.quo256 a b) s) r ∧ sign .f256 r = (sign .f256 a ^^ sign .f256 b) ∧
      CorrectProduct .f256 (sign .f256 a ^^ sign .f256 b) ((val .f256 a / val .f256 b : ℚ) : ℝ) r) ∧
  ∀ F : Fmt, ∃ a b : Pattern F, quo F a b ≠ quo F b a

/-- The special-value table of QUO (R83): the command completes with the tabulated result. The spec marks R83 as its
own inference from R80. -/
def Obligations.QuoFollowsTheTable : Prop :=
  (∀ (a b : BitVec 128) (s : State), ∃ r, Completes .f128 s (exec (.quo128 a b) s) r ∧ QuoTable .f128 a b r) ∧
  (∀ (a b : BitVec 256) (s : State), ∃ r, Completes .f256 s (exec (.quo256 a b) s) r ∧ QuoTable .f256 a b r)

/-- Multiplying or dividing a finite value by one gives it back bit for bit, subnormals included, and a finite
non-zero value divided by itself is one (corner cases of R70 and R80). -/
def Obligations.OneIsNeutral : Prop :=
  ∀ (F : Fmt) (x : Pattern F), isFinite F x = true →
    mul F x (pack F false F.BIAS 0) = x ∧ quo F x (pack F false F.BIAS 0) = x ∧
    (isZero F x = false → quo F x x = pack F false F.BIAS 0)

/-! ### Square root -/

/-- The bit-by-bit extraction delivers the integer root and its remainder (R91). -/
def Obligations.SqrtRemIsTheIntegerRoot : Prop :=
  ∀ v nbits : Nat, v < 4 ^ nbits →
    (sqrtRem v nbits).1 = Nat.sqrt v ∧ (sqrtRem v nbits).2 = v - (sqrtRem v nbits).1 * (sqrtRem v nbits).1 ∧
    (sqrtRem v nbits).2 ≤ 2 * (sqrtRem v nbits).1

/-- `sqrt` completes with the exact square root correctly rounded, for every positive finite non-zero operand (R92
(a)). The spec marks R92 and R56 as its own inferences from R90, R91 and R54. -/
def Obligations.SqrtRoundsCorrectly : Prop :=
  (∀ (a : BitVec 128) (s : State), FiniteNonzero .f128 a → sign .f128 a = false →
    ∃ r, Completes .f128 s (exec (.sqrt128 a) s) r ∧ RoundsTo .f128 false (Real.sqrt (val .f128 a : ℝ)) r) ∧
  (∀ (a : BitVec 256) (s : State), FiniteNonzero .f256 a → sign .f256 a = false →
    ∃ r, Completes .f256 s (exec (.sqrt256 a) s) r ∧ RoundsTo .f256 false (Real.sqrt (val .f256 a : ℝ)) r)

/-- The square root of a positive finite non-zero value is a positive normal value whose unbiased exponent is half
the operand's, rounded down: it never overflows, underflows or is subnormal (R92 (c), (e)). The spec marks R92
as its own inference from R90 and R91. -/
def Obligations.SqrtResultIsNormal : Prop :=
  ∀ (F : Fmt) (a : Pattern F), FiniteNonzero F a → sign F a = false →
    isNormal F (sqrt F a) = true ∧ sign F (sqrt F a) = false ∧
    ((bexp F (sqrt F a) : Int) = (normalize F a).exp / 2 + F.BIAS)

/-- The corner cases of SQRT (R90): NaN, zeros, negative values and infinities; the command completes. -/
def Obligations.SqrtFollowsTheCornerCases : Prop :=
  (∀ (a : BitVec 128) (s : State), ∃ r, Completes .f128 s (exec (.sqrt128 a) s) r ∧ SqrtTable .f128 a r) ∧
  (∀ (a : BitVec 256) (s : State), ∃ r, Completes .f256 s (exec (.sqrt256 a) s) r ∧ SqrtTable .f256 a r)

/-! ### Fused multiply-add -/

/-- `fma` completes with the exact `x*y + z` rounded once, `+0` when it is exactly zero, for finite non-zero
operands (R102). The spec marks R102 and R56 as its own inferences from R100 and R54. -/
def Obligations.FmaRoundsOnce : Prop :=
  (∀ (x y z : BitVec 128) (s : State), FiniteNonzero .f128 x → FiniteNonzero .f128 y → FiniteNonzero .f128 z →
    ∃ r, Completes .f128 s (exec (.fma128 x y z) s) r ∧
      CorrectSum .f128 ((val .f128 x * val .f128 y + val .f128 z : ℚ) : ℝ) r) ∧
  (∀ (x y z : BitVec 256) (s : State), FiniteNonzero .f256 x → FiniteNonzero .f256 y → FiniteNonzero .f256 z →
    ∃ r, Completes .f256 s (exec (.fma256 x y z) s) r ∧
      CorrectSum .f256 ((val .f256 x * val .f256 y + val .f256 z : ℚ) : ℝ) r)

/-- FMA with a special operand, row by row of the table (R103): the command completes with the tabulated result. -/
def Obligations.FmaFollowsTheTable : Prop :=
  (∀ (x y z : BitVec 128) (s : State), ∃ r, Completes .f128 s (exec (.fma128 x y z) s) r ∧ FmaTable .f128 x y z r) ∧
  (∀ (x y z : BitVec 256) (s : State), ∃ r, Completes .f256 s (exec (.fma256 x y z) s) r ∧ FmaTable .f256 x y z r)

/-- There are operands on which FMA and MUL followed by ADD differ, in both formats (R102). The spec marks R102 as
its own inference from R100. -/
def Obligations.FmaIsNotMulThenAdd : Prop :=
  ∀ F : Fmt, ∃ x y z : Pattern F, fma F x y z ≠ add F (mul F x y) z

/-- Exchanging the factors of FMA changes nothing, bit for bit (corner case of R100). -/
def Obligations.FmaIsSymmetricInItsFactors : Prop :=
  ∀ (F : Fmt) (x y z : Pattern F), fma F x y z = fma F y x z

/-! ### Across the operations -/

/-- The canonical quiet NaN has sign 0, exponent all ones, the top fraction bit set and the others clear; every NaN an
arithmetic operation returns is that pattern, and a NaN operand always gives it (R35). -/
def Obligations.OnlyTheCanonicalNaNIsReturned : Prop :=
  qnan .f128 = 0x7FFF8000000000000000000000000000#128 ∧
  qnan .f256 = 0x7FFFF80000000000000000000000000000000000000000000000000000000000#256 ∧
  ∀ (F : Fmt) (a b c : Pattern F),
    (∀ r, r = add F a b ∨ r = sub F a b ∨ r = mul F a b ∨ r = quo F a b ∨ r = sqrt F a ∨ r = fma F a b c →
      isNaN F r = true → r = qnan F) ∧
    (isNaN F a = true → sqrt F a = qnan F) ∧
    (isNaN F a = true ∨ isNaN F b = true →
      add F a b = qnan F ∧ sub F a b = qnan F ∧ mul F a b = qnan F ∧ quo F a b = qnan F) ∧
    (isNaN F a = true ∨ isNaN F b = true ∨ isNaN F c = true → fma F a b c = qnan F)

/-- The number of guard bits is not observable: any count of at least three gives the same sums and fused sums (R5,
R53, R62 (f)). The spec marks R53 and R62 as its own inferences from R50, R52 and R60. -/
def Obligations.GuardBitsAreNotObservable : Prop :=
  ∀ (F : Fmt) (g : Nat) (x y z : Pattern F), 3 ≤ g →
    addWith F g x y = add F x y ∧ fmaWith F g x y z = fma F x y z
end

