-- ==== Sys2Proof/Laws/Format.lean ====
section
/-! SUPPORT. Laws/Format.lean: bit length, and Split and Pack as inverses (spec/00_scope.md R7,
spec/40_classify_normalize.md R40, R47). -/

namespace Sys2Proof

/-! ### The format constants as numerals -/

theorem Fmt.N_f128 : Fmt.N .f128 = 128 := rfl
theorem Fmt.N_f256 : Fmt.N .f256 = 256 := rfl
theorem Fmt.BIAS_f128 : Fmt.BIAS .f128 = 16383 := by decide
theorem Fmt.BIAS_f256 : Fmt.BIAS .f256 = 262143 := by decide
theorem Fmt.EXP_ALL1_f128 : Fmt.EXP_ALL1 .f128 = 32767 := by decide
theorem Fmt.EXP_ALL1_f256 : Fmt.EXP_ALL1 .f256 = 524287 := by decide
theorem Fmt.EMIN_f128 : Fmt.EMIN .f128 = -16382 := by decide
theorem Fmt.EMIN_f256 : Fmt.EMIN .f256 = -262142 := by decide
theorem Fmt.EMAX_f128 : Fmt.EMAX .f128 = 16383 := by decide
theorem Fmt.EMAX_f256 : Fmt.EMAX .f256 = 262143 := by decide

theorem Fmt.IMPLICIT_eq (F : Fmt) : F.IMPLICIT = 2 ^ F.FW := by simp [Fmt.IMPLICIT, Nat.shiftLeft_eq]
theorem Fmt.two_pow_EW (F : Fmt) : 2 ^ F.EW = F.EXP_ALL1 + 1 := by cases F <;> decide
theorem Fmt.two_pow_FW_pos (F : Fmt) : 0 < 2 ^ F.FW := Nat.two_pow_pos _
/-- The exponent field of all ones is twice the bias and one (R4). -/
theorem Fmt.EXP_ALL1_eq (F : Fmt) : F.EXP_ALL1 = 2 * F.BIAS + 1 := by cases F <;> decide
theorem Fmt.BIAS_pos (F : Fmt) : 0 < F.BIAS := by cases F <;> decide
theorem Fmt.N_eq (F : Fmt) : F.N = 1 + F.EW + F.FW := rfl

end Sys2Proof

namespace Sys2Proof.Machine

/-! ### Bit length -/

@[simp] theorem bitlen_zero : bitlen 0 = 0 := rfl

theorem bitlen_of_ne_zero {v : Nat} (h : v ≠ 0) : bitlen v = Nat.log2 v + 1 := by simp [bitlen, h]

theorem lt_two_pow_bitlen (v : Nat) : v < 2 ^ bitlen v := by
  by_cases h : v = 0
  · simp [h]
  · rw [bitlen_of_ne_zero h]; exact Nat.lt_log2_self

theorem two_pow_bitlen_le {v : Nat} (h : v ≠ 0) : 2 ^ (bitlen v - 1) ≤ v := by
  rw [bitlen_of_ne_zero h]; exact Nat.log2_self_le h

/-- The bit length is the one length between whose powers of two the value lies (R7). -/
theorem bitlen_eq_iff {v n : Nat} : bitlen v = n + 1 ↔ 2 ^ n ≤ v ∧ v < 2 ^ (n + 1) := by
  constructor
  · intro h
    have hv : v ≠ 0 := by rintro rfl; simp at h
    have h1 := two_pow_bitlen_le hv
    have h2 := lt_two_pow_bitlen v
    rw [h] at h1 h2
    exact ⟨h1, h2⟩
  · rintro ⟨h1, h2⟩
    have hv : v ≠ 0 := by have := Nat.two_pow_pos n; omega
    rw [bitlen_of_ne_zero hv, (Nat.log2_eq_iff hv).mpr ⟨h1, h2⟩]

theorem bitlen_le_iff {v n : Nat} : bitlen v ≤ n ↔ v < 2 ^ n := by
  constructor
  · exact fun h => lt_of_lt_of_le (lt_two_pow_bitlen v) (Nat.pow_le_pow_right (by norm_num) h)
  · intro h
    by_contra hc
    have hv : v ≠ 0 := by rintro rfl; simp at hc
    have h1 := two_pow_bitlen_le hv
    have : 2 ^ n ≤ 2 ^ (bitlen v - 1) := Nat.pow_le_pow_right (by norm_num) (by omega)
    omega

/-- Shifting left by `s` adds `s` to the bit length of a non-zero value. -/
theorem bitlen_shiftLeft {v : Nat} (h : v ≠ 0) (s : Nat) : bitlen (v <<< s) = bitlen v + s := by
  obtain ⟨n, hn⟩ : ∃ n, bitlen v = n + 1 := ⟨_, bitlen_of_ne_zero h⟩
  obtain ⟨h1, h2⟩ := bitlen_eq_iff.mp hn
  have : bitlen (v <<< s) = (n + s) + 1 := by
    rw [bitlen_eq_iff, Nat.shiftLeft_eq]
    refine ⟨by rw [Nat.pow_add]; exact Nat.mul_le_mul_right _ h1, ?_⟩
    rw [show n + s + 1 = (n + 1) + s by omega, Nat.pow_add]
    exact (Nat.mul_lt_mul_right (Nat.two_pow_pos s)).mpr h2
  omega

/-! ### Split -/

theorem bexp_lt (F : Fmt) (x : Pattern F) : bexp F x < 2 ^ F.EW := (x.extractLsb' F.FW F.EW).isLt

theorem bexp_le (F : Fmt) (x : Pattern F) : bexp F x ≤ F.EXP_ALL1 := by
  have := bexp_lt F x; rw [Fmt.two_pow_EW] at this; omega

theorem frac_lt (F : Fmt) (x : Pattern F) : frac F x < 2 ^ F.FW := (x.extractLsb' 0 F.FW).isLt

/-! ### Pack, the inverse of Split -/

/-- A pattern as a number, by its three fields (R47). -/
theorem pack_toNat (F : Fmt) (s : Bool) {be fr : Nat} (hb : be ≤ F.EXP_ALL1) (hf : fr < 2 ^ F.FW) :
    (pack F s be fr).toNat = (s.toNat * 2 ^ F.EW + be) * 2 ^ F.FW + fr := by
  have hb' : be < 2 ^ F.EW := by rw [Fmt.two_pow_EW]; omega
  simp only [pack, BitVec.toNat_append, BitVec.toNat_ofNat, BitVec.toNat_ofBool, Nat.mod_eq_of_lt hb',
    Nat.mod_eq_of_lt hf]
  rw [← Nat.shiftLeft_add_eq_or_of_lt hf, ← Nat.shiftLeft_add_eq_or_of_lt hb', Nat.shiftLeft_eq, Nat.shiftLeft_eq]

theorem bexp_eq_div (F : Fmt) (x : Pattern F) : bexp F x = x.toNat / 2 ^ F.FW % 2 ^ F.EW := by
  simp [bexp, BitVec.extractLsb'_toNat, Nat.shiftRight_eq_div_pow]

theorem frac_eq_mod (F : Fmt) (x : Pattern F) : frac F x = x.toNat % 2 ^ F.FW := by
  simp [frac, BitVec.extractLsb'_toNat]

theorem sign_eq_div (F : Fmt) (x : Pattern F) : (sign F x).toNat = x.toNat / 2 ^ (F.EW + F.FW) := by
  have hlt : x.toNat / 2 ^ (F.EW + F.FW) < 2 := by
    rw [Nat.div_lt_iff_lt_mul (Nat.two_pow_pos _), ← pow_succ']
    exact lt_of_lt_of_eq x.isLt (congrArg (2 ^ ·) (by simp only [Fmt.N]; omega))
  have hN : F.N - 1 = F.EW + F.FW := by simp only [Fmt.N]; omega
  simp only [sign, hN, BitVec.getLsbD, Nat.testBit, Nat.shiftRight_eq_div_pow, Nat.one_and_eq_mod_two]
  rw [Nat.mod_eq_of_lt hlt]
  generalize x.toNat / 2 ^ (F.EW + F.FW) = b at hlt
  obtain rfl | rfl : b = 0 ∨ b = 1 := by omega
  all_goals rfl

/-- A pattern as a number, by the fields Split gives (R40). -/
theorem toNat_eq_fields (F : Fmt) (x : Pattern F) :
    x.toNat = ((sign F x).toNat * 2 ^ F.EW + bexp F x) * 2 ^ F.FW + frac F x := by
  rw [sign_eq_div, bexp_eq_div, frac_eq_mod, Nat.pow_add, Nat.mul_comm (2 ^ F.EW), ← Nat.div_div_eq_div_mul,
    Nat.mul_comm (x.toNat / 2 ^ F.FW / 2 ^ F.EW), Nat.div_add_mod, Nat.mul_comm, Nat.div_add_mod]

/-- Packing what Split gives is the pattern (R47). -/
theorem pack_fields (F : Fmt) (x : Pattern F) : pack F (sign F x) (bexp F x) (frac F x) = x := by
  apply BitVec.eq_of_toNat_eq
  rw [pack_toNat F _ (bexp_le F x) (frac_lt F x), ← toNat_eq_fields]

/-- Two patterns with the same fields are equal (R40, R47). -/
theorem pattern_ext {F : Fmt} {x y : Pattern F} (hs : sign F x = sign F y) (hb : bexp F x = bexp F y)
    (hf : frac F x = frac F y) : x = y := by
  rw [← pack_fields F x, ← pack_fields F y, hs, hb, hf]

section pack
variable (F : Fmt) (s : Bool) {be fr : Nat} (hb : be ≤ F.EXP_ALL1) (hf : fr < 2 ^ F.FW)
include hb hf

theorem frac_pack : frac F (pack F s be fr) = fr := by
  rw [frac_eq_mod, pack_toNat F s hb hf, Nat.mul_add_mod', Nat.mod_eq_of_lt hf]

theorem bexp_pack : bexp F (pack F s be fr) = be := by
  rw [bexp_eq_div, pack_toNat F s hb hf, Nat.mul_comm, Nat.mul_add_div (Nat.two_pow_pos _),
    Nat.div_eq_of_lt hf, Nat.add_zero, Nat.mul_add_mod', Nat.mod_eq_of_lt]
  rw [Fmt.two_pow_EW]; omega

theorem sign_pack : sign F (pack F s be fr) = s := by
  have hb' : be < 2 ^ F.EW := by rw [Fmt.two_pow_EW]; omega
  have h : (sign F (pack F s be fr)).toNat = s.toNat := by
    rw [sign_eq_div, pack_toNat F s hb hf, Nat.pow_add, Nat.mul_comm (2 ^ F.EW), ← Nat.div_div_eq_div_mul,
      Nat.mul_comm _ (2 ^ F.FW), Nat.mul_add_div (Nat.two_pow_pos _), Nat.div_eq_of_lt hf, Nat.add_zero,
      Nat.mul_comm, Nat.mul_add_div (Nat.two_pow_pos _), Nat.div_eq_of_lt hb', Nat.add_zero]
  cases s <;> cases hs : sign F (pack F _ be fr) <;> simp_all

end pack

end Sys2Proof.Machine
end

