-- ==== Sys2Proof/Laws/Classify.lean ====
section
/-! SUPPORT. Laws/Classify.lean: the classes by fields, the class of the special patterns, the sign flip, and
Normalize's two cases (spec/40_classify_normalize.md R41 to R48). -/

namespace Sys2Proof.Machine

variable {F : Fmt} {x : Pattern F}

/-! ### The classes by fields -/

theorem isNaN_iff : isNaN F x = true ↔ bexp F x = F.EXP_ALL1 ∧ frac F x ≠ 0 := by simp [isNaN]
theorem isInf_iff : isInf F x = true ↔ bexp F x = F.EXP_ALL1 ∧ frac F x = 0 := by simp [isInf]
theorem isZero_iff : isZero F x = true ↔ bexp F x = 0 ∧ frac F x = 0 := by simp [isZero]
theorem isSubnormal_iff : isSubnormal F x = true ↔ bexp F x = 0 ∧ frac F x ≠ 0 := by simp [isSubnormal]
theorem isNormal_iff : isNormal F x = true ↔ 1 ≤ bexp F x ∧ bexp F x ≤ F.EXP_ALL1 - 1 := by simp [isNormal]
theorem isFinite_iff : isFinite F x = true ↔ bexp F x ≠ F.EXP_ALL1 := by simp [isFinite]

theorem EXP_ALL1_pos (F : Fmt) : 0 < F.EXP_ALL1 := by cases F <;> decide

theorem isNaN_false_of_isFinite (h : isFinite F x = true) : isNaN F x = false := by
  simp [isNaN, isFinite_iff.mp h]
theorem isInf_false_of_isFinite (h : isFinite F x = true) : isInf F x = false := by
  simp [isInf, isFinite_iff.mp h]
theorem isFinite_of_isZero (h : isZero F x = true) : isFinite F x = true := by
  rw [isFinite_iff, (isZero_iff.mp h).1]; exact (EXP_ALL1_pos F).ne
theorem isFinite_false_of_isInf (h : isInf F x = true) : isFinite F x = false := by
  simp [isFinite, (isInf_iff.mp h).1]
theorem isNaN_false_of_isInf (h : isInf F x = true) : isNaN F x = false := by
  simp [isNaN, (isInf_iff.mp h).2]
theorem isZero_false_of_isInf (h : isInf F x = true) : isZero F x = false := by
  simp [isZero, (isInf_iff.mp h).1, (EXP_ALL1_pos F).ne']
/-- An infinity and a zero are determined by their sign (R32, R34). -/
theorem eq_infOf_of_isInf (h : isInf F x = true) : x = infOf F (sign F x) := by
  have hp := pack_fields F x
  rw [(isInf_iff.mp h).1, (isInf_iff.mp h).2] at hp
  exact hp.symm
theorem eq_zeroOf_of_isZero (h : isZero F x = true) : x = zeroOf F (sign F x) := by
  have hp := pack_fields F x
  rw [(isZero_iff.mp h).1, (isZero_iff.mp h).2] at hp
  exact hp.symm

/-! ### The special patterns (R34, R35) -/

section special
variable (F : Fmt) (s : Bool)

@[simp] theorem sign_zeroOf : sign F (zeroOf F s) = s := sign_pack F s (Nat.zero_le _) F.two_pow_FW_pos
@[simp] theorem bexp_zeroOf : bexp F (zeroOf F s) = 0 := bexp_pack F s (Nat.zero_le _) F.two_pow_FW_pos
@[simp] theorem frac_zeroOf : frac F (zeroOf F s) = 0 := frac_pack F s (Nat.zero_le _) F.two_pow_FW_pos
@[simp] theorem sign_infOf : sign F (infOf F s) = s := sign_pack F s le_rfl F.two_pow_FW_pos
@[simp] theorem bexp_infOf : bexp F (infOf F s) = F.EXP_ALL1 := bexp_pack F s le_rfl F.two_pow_FW_pos
@[simp] theorem frac_infOf : frac F (infOf F s) = 0 := frac_pack F s le_rfl F.two_pow_FW_pos

theorem quietBit_lt : 1 <<< (F.FW - 1) < 2 ^ F.FW := by cases F <;> decide +kernel
@[simp] theorem bexp_qnan : bexp F (qnan F) = F.EXP_ALL1 := bexp_pack F false le_rfl (quietBit_lt F)
@[simp] theorem frac_qnan : frac F (qnan F) = 1 <<< (F.FW - 1) := frac_pack F false le_rfl (quietBit_lt F)
@[simp] theorem sign_qnan : sign F (qnan F) = false := sign_pack F false le_rfl (quietBit_lt F)

@[simp] theorem isZero_zeroOf : isZero F (zeroOf F s) = true := by simp [isZero]
@[simp] theorem isNaN_zeroOf : isNaN F (zeroOf F s) = false := by simp [isNaN]
@[simp] theorem isInf_zeroOf : isInf F (zeroOf F s) = false := by simp [isInf, (EXP_ALL1_pos F).ne]
@[simp] theorem isInf_infOf : isInf F (infOf F s) = true := by simp [isInf]
@[simp] theorem isNaN_infOf : isNaN F (infOf F s) = false := by simp [isNaN]
@[simp] theorem isZero_infOf : isZero F (infOf F s) = false := by simp [isZero, (EXP_ALL1_pos F).ne']
@[simp] theorem isNaN_qnan : isNaN F (qnan F) = true := by
  rw [isNaN_iff]; refine ⟨bexp_qnan F, ?_⟩; rw [frac_qnan, Nat.shiftLeft_eq]; positivity
@[simp] theorem isInf_qnan : isInf F (qnan F) = false := by
  simp [isInf]

end special

/-! ### The sign flip (R61) -/

/-- Inverting the sign bit leaves the other fields as they are. -/
theorem xor_signMask (F : Fmt) (x : Pattern F) :
    x ^^^ signMask F = pack F (!sign F x) (bexp F x) (frac F x) := by
  conv_lhs => rw [← pack_fields F x]
  simp only [signMask, pack, BitVec.xor_append]
  cases sign F x <;> simp
@[simp] theorem sign_xor_signMask : sign F (x ^^^ signMask F) = !sign F x := by
  rw [xor_signMask]; exact sign_pack F _ (bexp_le F x) (frac_lt F x)
@[simp] theorem bexp_xor_signMask : bexp F (x ^^^ signMask F) = bexp F x := by
  rw [xor_signMask]; exact bexp_pack F _ (bexp_le F x) (frac_lt F x)
@[simp] theorem frac_xor_signMask : frac F (x ^^^ signMask F) = frac F x := by
  rw [xor_signMask]; exact frac_pack F _ (bexp_le F x) (frac_lt F x)

/-! ### Normalize (R45) -/

theorem normalize_sign (F : Fmt) (x : Pattern F) : (normalize F x).sign = sign F x := by
  unfold normalize; split <;> rfl

/-- A normal pattern's triple: the exponent unbiased, the implicit bit above the fraction field (R45). -/
theorem normalize_of_normal (h : bexp F x ≠ 0) :
    normalize F x = { sign := sign F x, exp := (bexp F x : Int) - F.BIAS, frac := 2 ^ F.FW + frac F x } := by
  have hor : F.IMPLICIT ||| frac F x = 2 ^ F.FW + frac F x := by
    have := Nat.shiftLeft_add_eq_or_of_lt (frac_lt F x) 1
    rw [Fmt.IMPLICIT, ← this, Nat.shiftLeft_eq, Nat.one_mul]
  simp [normalize, h, hor]

/-- A subnormal pattern's triple: the highest set bit of the fraction field, at position `l` counted from 1, moves to
the implicit bit's place (R45). -/
theorem normalize_of_subnormal (h : bexp F x = 0) :
    normalize F x =
      { sign := sign F x
        exp := (bitlen (frac F x) : Int) - (F.BIAS + F.FW)
        frac := frac F x * 2 ^ (F.FW + 1 - bitlen (frac F x)) } := by
  simp [normalize, h, Nat.shiftLeft_eq]

/-- A triple's fraction has its leading one at the implicit bit (R45, R46). -/
theorem normalize_frac_bitlen (h : ¬ (bexp F x = 0 ∧ frac F x = 0)) : bitlen (normalize F x).frac = F.P := by
  by_cases hb : bexp F x = 0
  · have hf : frac F x ≠ 0 := fun hf => h ⟨hb, hf⟩
    have hl : bitlen (frac F x) ≤ F.FW := bitlen_le_iff.mpr (frac_lt F x)
    rw [normalize_of_subnormal hb, ← Nat.shiftLeft_eq, bitlen_shiftLeft hf]
    simp only [Fmt.P]; omega
  · rw [normalize_of_normal hb, bitlen_eq_iff]
    have := frac_lt F x
    refine ⟨Nat.le_add_right _ _, ?_⟩
    show 2 ^ F.FW + frac F x < 2 ^ (F.FW + 1)
    rw [pow_succ]; omega

end Sys2Proof.Machine
end

