-- ==== Sys2Proof/Laws/Rounding.lean ====
section
/-! SUPPORT. Laws/Rounding.lean: the rounding engine in division form, and the branches of RoundPack
(spec/41_rounding.md R50, R52, R54). -/

namespace Sys2Proof.Machine

/-- RNE in division form (R50). -/
theorem rne_eq_div (v k : Nat) : rne v k = (v + (2 ^ (k - 1) - 1) + v / 2 ^ k % 2) / 2 ^ k := by
  simp [rne, Nat.shiftRight_eq_div_pow, Nat.shiftLeft_eq, Nat.and_one_is_mod]

/-- RNE by the low bits (R50): write `v = n * 2^k + low` and `h = 2^(k-1)`; below half keep `n`, above half take
`n + 1`, at half take the even one. -/
theorem rne_cases (n low k : Nat) (hk : 1 ≤ k) (hlow : low < 2 ^ k) :
    rne (n * 2 ^ k + low) k =
      if low < 2 ^ (k - 1) then n else if 2 ^ (k - 1) < low then n + 1 else n + n % 2 := by
  obtain ⟨j, rfl⟩ : ∃ j, k = j + 1 := ⟨k - 1, by omega⟩
  have hpow : 2 ^ (j + 1) = 2 * 2 ^ j := by rw [pow_succ]; omega
  have hpos := Nat.two_pow_pos j
  have hdiv : (n * 2 ^ (j + 1) + low) / 2 ^ (j + 1) = n := by
    rw [Nat.mul_comm, Nat.mul_add_div (Nat.two_pow_pos _), Nat.div_eq_of_lt hlow, Nat.add_zero]
  have hmod := Nat.mod_lt n (by norm_num : 2 > 0)
  rw [rne_eq_div, hdiv, Nat.add_sub_cancel]
  set h := 2 ^ j
  set D := 2 ^ (j + 1)
  have split : ∀ c r, n * D + low + (h - 1) + n % 2 = (n + c) * D + r → r < D →
      (n * D + low + (h - 1) + n % 2) / D = n + c := by
    intro c r he hr
    rw [he, Nat.mul_comm, Nat.mul_add_div (by omega), Nat.div_eq_of_lt hr, Nat.add_zero]
  have expand : ∀ c, (n + c) * D = n * D + c * D := fun c => Nat.add_mul n c D
  split_ifs with h1 h2
  · exact split 0 (low + (h - 1) + n % 2) (by rw [expand]; omega) (by omega)
  · exact split 1 (low + (h - 1) + n % 2 - D) (by rw [expand]; omega) (by omega)
  · rcases (by omega : n % 2 = 0 ∨ n % 2 = 1) with hn | hn
    · rw [hn] at split ⊢
      exact split 0 (low + (h - 1)) (by rw [expand]; omega) (by omega)
    · rw [hn] at split ⊢
      exact split 1 0 (by rw [expand]; omega) (by omega)

/-- RNE gives one of the two neighbours of `v / 2^k`. -/
theorem rne_le (v k : Nat) (hk : 1 ≤ k) : v / 2 ^ k ≤ rne v k ∧ rne v k ≤ v / 2 ^ k + 1 := by
  have h := rne_cases (v / 2 ^ k) (v % 2 ^ k) k hk (Nat.mod_lt _ (Nat.two_pow_pos k))
  rw [Nat.mul_comm, Nat.div_add_mod] at h
  rw [h]
  have := Nat.mod_lt (v / 2 ^ k) (by norm_num : 2 > 0)
  split_ifs <;> omega

/-- The sticky shift in division form (R52). -/
theorem shrcompress_eq (v d : Nat) : shrcompress v d = if v % 2 ^ d = 0 then v / 2 ^ d else v / 2 ^ d ||| 1 := by
  unfold shrcompress lowbits
  by_cases h : v % 2 ^ d = 0 <;> simp [h, Nat.shiftRight_eq_div_pow]

/-- ORing a sticky bit into bit 0 gives the odd one of `n`, `n + 1` (R53). -/
theorem or_one_eq (n : Nat) : n ||| 1 = if n % 2 = 0 then n + 1 else n := by
  have low : n % 2 < 2 ^ 1 := by omega
  have hn : n = (n / 2) <<< 1 ||| n % 2 := by
    rw [← Nat.shiftLeft_add_eq_or_of_lt low, Nat.shiftLeft_eq]; omega
  have hone : n % 2 ||| 1 = 1 := by rcases Nat.mod_two_eq_zero_or_one n with h | h <;> simp [h]
  have : n ||| 1 = n / 2 * 2 + 1 := by
    conv_lhs => rw [hn, Nat.or_assoc, hone]
    rw [← Nat.shiftLeft_add_eq_or_of_lt (by norm_num), Nat.shiftLeft_eq, pow_one]
  split_ifs <;> omega

/-- RoundPack at or above the smallest normal (R54). -/
theorem roundPack_of_normal {F : Fmt} {s : Bool} {m : Nat} {q : Int} (h : F.EMIN ≤ leadExponent m q) :
    roundPack F s m q = packNormal F s (roundedMagnitude F m q) (leadExponent m q) := by simp [roundPack, h]

/-- RoundPack below the smallest normal (R54). -/
theorem roundPack_of_subnormal {F : Fmt} {s : Bool} {m : Nat} {q : Int} (h : leadExponent m q < F.EMIN) :
    roundPack F s m q = packSubnormal F s (roundedMagnitude F m q) := by
  simp [roundPack, Int.not_le.mpr h]

/-- At or above the smallest normal the number of dropped bits is what leaves `P` of them (R54). -/
theorem dropCount_of_normal {F : Fmt} {m : Nat} {q : Int} (h : F.EMIN ≤ leadExponent m q) :
    dropCount F m q = (bitlen m : Int) - F.P := by
  unfold leadExponent at h; unfold dropCount
  apply max_eq_left; simp only [Fmt.P]; push_cast; omega

/-- Below the smallest normal the number of dropped bits is what leaves the subnormal grid (R54, R57). -/
theorem dropCount_of_subnormal {F : Fmt} {m : Nat} {q : Int} (h : leadExponent m q < F.EMIN) :
    dropCount F m q = (F.EMIN - F.FW) - q := by
  unfold leadExponent at h; unfold dropCount
  apply max_eq_right; simp only [Fmt.P]; push_cast; omega

end Sys2Proof.Machine
end

