-- ==== Sys2Proof/Laws/Arith.lean ====
section
/-! SUPPORT. Laws/Arith.lean: what each operation does with operands that are all finite and non-zero, and its special
cases, in the order of its rule (spec/40_classify_normalize.md R49). -/

namespace Sys2Proof.Machine

variable {F : Fmt} {a b c : Pattern F}

/-- A finite non-zero pattern passes none of the special tests (R49). -/
theorem not_special (hf : isFinite F a = true) (hz : isZero F a = false) :
    isNaN F a = false ∧ isInf F a = false ∧ isSpecial F a = false := by
  simp [isSpecial, isNaN_false_of_isFinite hf, isInf_false_of_isFinite hf, hz]

section computed
variable (ha : isFinite F a = true) (hza : isZero F a = false) (hb : isFinite F b = true) (hzb : isZero F b = false)
include ha hza hb hzb

theorem addWith_of_finite (g : Nat) : addWith F g a b = addTriples F g (normalize F a) (normalize F b) := by
  simp [addWith, not_special ha hza, not_special hb hzb, hza, hzb]

theorem mul_of_finite : mul F a b = mulTriples F (normalize F a) (normalize F b) := by
  simp [mul, not_special ha hza, not_special hb hzb, hza, hzb]

theorem quo_of_finite : quo F a b = quoTriples F (normalize F a) (normalize F b) := by
  simp [quo, not_special ha hza, not_special hb hzb, hza, hzb]

theorem fmaWith_of_finite (g : Nat) (hc : isFinite F c = true) (hzc : isZero F c = false) :
    fmaWith F g a b c = fmaTriples F g (normalize F a) (normalize F b) (normalize F c) := by
  simp [fmaWith, not_special ha hza, not_special hb hzb, not_special hc hzc]

end computed

theorem sqrt_of_positive (ha : isFinite F a = true) (hza : isZero F a = false) (hs : sign F a = false) :
    sqrt F a = sqrtTriple F (normalize F a) := by
  simp [sqrt, not_special ha hza, hza, hs]

/-- A NaN operand is tested first and wins over every other condition (spec/60_exceptions.md R113 (a)). -/
theorem addWith_of_nan (g : Nat) (h : isNaN F a = true ∨ isNaN F b = true) : addWith F g a b = qnan F := by
  rcases h with h | h <;> simp [addWith, h]

theorem mul_of_nan (h : isNaN F a = true ∨ isNaN F b = true) : mul F a b = qnan F := by
  rcases h with h | h <;> simp [mul, h]

theorem quo_of_nan (h : isNaN F a = true ∨ isNaN F b = true) : quo F a b = qnan F := by
  rcases h with h | h <;> simp [quo, h]

/-- A zero operand of ADD returns the other, finite non-zero one bit for bit (R60). -/
theorem addWith_zero_left (g : Nat) (hz : isZero F a = true) (hb : isFinite F b = true) (hzb : isZero F b = false) :
    addWith F g a b = b := by
  have hf := isFinite_of_isZero hz
  simp [addWith, isNaN_false_of_isFinite hf, isInf_false_of_isFinite hf, not_special hb hzb, hz, hzb]

theorem addWith_zero_right (g : Nat) (ha : isFinite F a = true) (hza : isZero F a = false) (hz : isZero F b = true) :
    addWith F g a b = a := by
  have hf := isFinite_of_isZero hz
  simp [addWith, isNaN_false_of_isFinite hf, isInf_false_of_isFinite hf, not_special ha hza, hz, hza]

/-- The sum of two zeros has the AND of their signs (R60). -/
theorem addWith_zeros (g : Nat) (ha : isZero F a = true) (hb : isZero F b = true) :
    addWith F g a b = zeroOf F (sign F a && sign F b) := by
  have hfa := isFinite_of_isZero ha
  have hfb := isFinite_of_isZero hb
  simp [addWith, isNaN_false_of_isFinite hfa, isInf_false_of_isFinite hfa, isNaN_false_of_isFinite hfb,
    isInf_false_of_isFinite hfb, ha, hb]

/-- FMA's one departure from the fallback: finite factors and an infinite addend give the addend (R103 (i)). -/
theorem fmaWith_infinite_addend (g : Nat) (ha : isFinite F a = true) (hb : isFinite F b = true)
    (hc : isInf F c = true) : fmaWith F g a b c = c := by
  simp [fmaWith, isSpecial, ha, hb, hc]

/-- The alignment of an operand onto itself loses nothing. -/
@[simp] theorem shrcompress_zero (v : Nat) : shrcompress v 0 = v := by simp [shrcompress, lowbits, Nat.mod_one]

/-- Ordering by exponent puts the operand of larger exponent first (R60). -/
theorem orderByExp_le (x y : Triple) : (orderByExp x y).2.exp ≤ (orderByExp x y).1.exp := by
  unfold orderByExp; split_ifs with h <;> simp <;> omega

/-- Ordering by exponent keeps the two operands. -/
theorem orderByExp_cases (x y : Triple) : orderByExp x y = (x, y) ∨ orderByExp x y = (y, x) := by
  unfold orderByExp; split_ifs <;> simp

/-- Ordering the terms of a fused sum keeps the two terms (R100 step (4)). -/
theorem orderTerms_cases (p z : Term) : orderTerms p z = (p, z) ∨ orderTerms p z = (z, p) := by
  unfold orderTerms; split_ifs <;> simp

/-- The bigger term of a fused sum has the larger scale, and at equal scales the larger magnitude (R100 step (4)). -/
theorem orderTerms_le (p z : Term) :
    (orderTerms p z).2.scale ≤ (orderTerms p z).1.scale ∧
      ((orderTerms p z).2.scale = (orderTerms p z).1.scale → (orderTerms p z).2.mag ≤ (orderTerms p z).1.mag) := by
  unfold orderTerms
  split_ifs with h
  · simp only [termGe, Bool.or_eq_true, decide_eq_true_eq, Bool.and_eq_true, beq_iff_eq] at h
    constructor <;> (simp only; omega)
  · simp only [termGe, Bool.or_eq_true, decide_eq_true_eq, Bool.and_eq_true, beq_iff_eq, not_or, not_and] at h
    constructor <;> (simp only; omega)

/-- The sticky quotient in arithmetic form (R80). -/
theorem stickyDiv_eq (n d : Nat) : stickyDiv n d = if n % d = 0 then n / d else n / d ||| 1 := by
  unfold stickyDiv; by_cases h : n % d = 0 <;> simp [h]

end Sys2Proof.Machine
end

