-- ==== Sys2Proof/Laws/State.lean ====
section
/-! SUPPORT. Laws/State.lean: what each state update leaves in each field, so that no later proof unfolds a record
update. -/

namespace Sys2Proof.Machine

section accept
variable (s : State) (w : Word)
@[simp] theorem State.accept_pending : (s.accept w).pending = s.pending ++ [w] := rfl
@[simp] theorem State.accept_offered : (s.accept w).offered = s.offered := rfl
@[simp] theorem State.accept_phase : (s.accept w).phase = s.phase := rfl
@[simp] theorem State.accept_taken : (s.accept w).taken = s.taken := rfl
@[simp] theorem State.accept_inputs : (s.accept w).inputs = s.inputs := rfl
end accept

section resetEdge
variable (s : State)
@[simp] theorem State.resetEdge_pending : s.resetEdge.pending = [] := rfl
@[simp] theorem State.resetEdge_offered : s.resetEdge.offered = false := rfl
@[simp] theorem State.resetEdge_phase : s.resetEdge.phase = .running := rfl
@[simp] theorem State.resetEdge_taken : s.resetEdge.taken = s.taken := rfl
@[simp] theorem State.resetEdge_inputs : s.resetEdge.inputs = s.inputs := rfl
end resetEdge

section passEdge
variable (s : State) (e : Edge) (depth : Nat)
@[simp] theorem State.passEdge_pending : s.passEdge.pending = s.pending := rfl
@[simp] theorem State.passEdge_offered : s.passEdge.offered = s.offered := rfl
@[simp] theorem State.passEdge_phase : s.passEdge.phase = s.phase := rfl
@[simp] theorem State.passEdge_taken : s.passEdge.taken = s.taken := rfl
@[simp] theorem State.passEdge_inputs : s.passEdge.inputs = s.inputs.tail := rfl
@[simp] theorem State.passEdge_rspValid : s.passEdge.rspValid e = s.rspValid e := rfl
@[simp] theorem State.passEdge_delivers : s.passEdge.delivers e = s.delivers e := rfl
@[simp] theorem State.passEdge_cmdReady : s.passEdge.cmdReady depth e = s.cmdReady depth e := rfl
@[simp] theorem State.passEdge_accepts : s.passEdge.accepts depth e = s.accepts depth e := rfl
end passEdge

section responseChannel
variable (s : State) (e : Edge)
@[simp] theorem State.responseChannel_pending :
    (s.responseChannel e).pending = if s.delivers e then s.pending.tail else s.pending := by
  unfold State.responseChannel; split <;> rfl
@[simp] theorem State.responseChannel_offered :
    (s.responseChannel e).offered = if s.delivers e then false else s.rspValid e := by
  unfold State.responseChannel; split <;> rfl
@[simp] theorem State.responseChannel_phase : (s.responseChannel e).phase = s.phase := by
  unfold State.responseChannel; split <;> rfl
@[simp] theorem State.responseChannel_taken :
    (s.responseChannel e).taken = if s.delivers e then s.taken ++ s.pending.head?.toList else s.taken := by
  unfold State.responseChannel; split <;> rfl
@[simp] theorem State.responseChannel_inputs : (s.responseChannel e).inputs = s.inputs := by
  unfold State.responseChannel; split <;> rfl
end responseChannel

section withFetchWord
variable (s : State) (nbits w : Nat)
@[simp] theorem State.withFetchWord_pending : (s.withFetchWord nbits w).pending = s.pending := rfl
@[simp] theorem State.withFetchWord_offered : (s.withFetchWord nbits w).offered = s.offered := rfl
@[simp] theorem State.withFetchWord_phase : (s.withFetchWord nbits w).phase = .running := rfl
@[simp] theorem State.withFetchWord_taken : (s.withFetchWord nbits w).taken = s.taken := rfl
@[simp] theorem State.withFetchWord_nextEdge :
    (s.withFetchWord nbits w).nextEdge = s.offerEdge Config.DEPTH (Command.ofNat (w % 2 ^ nbits)) := rfl
@[simp] theorem State.withFetchWord_passEdge_inputs : (s.withFetchWord nbits w).passEdge.inputs = s.inputs := rfl
end withFetchWord

section reset
@[simp] theorem State.reset_pending : State.reset.pending = [] := rfl
@[simp] theorem State.reset_offered : State.reset.offered = false := rfl
@[simp] theorem State.reset_phase : State.reset.phase = .running := rfl
@[simp] theorem State.reset_taken : State.reset.taken = [] := rfl
@[simp] theorem State.reset_inputs : State.reset.inputs = [] := rfl
end reset

end Sys2Proof.Machine
end

