-- ==== Sys2Proof/Laws/Ops.lean ====
section
/-! SUPPORT. Laws/Ops.lean: what the handshake operations, the clock edge and the step can do, said once. -/

namespace Sys2Proof.Machine

theorem DEPTH_pos : 0 < Config.DEPTH := Nat.succ_pos _

section outputs
variable {depth : Nat} {s : State} {e : Edge}

/-- `rsp_valid` of a running unit, as an equation (R17, R130, R136 (a)). -/
theorem State.rspValid_running (hp : s.phase = .running) :
    s.rspValid e = (!e.rst && (!s.pending.isEmpty && (s.offered || e.wishValid))) := by
  simp [State.rspValid, hp]

/-- `rsp_valid` before the first reset edge is free (R133, log entry 6). -/
theorem State.rspValid_beforeFirstReset (hp : s.phase = .beforeFirstReset) :
    s.rspValid e = (!e.rst && e.wishValid) := by
  simp [State.rspValid, hp]

/-- `rsp_data` of a running unit, as an equation (R17). -/
theorem State.rspData_running (hp : s.phase = .running) :
    s.rspData e = if s.rspValid e then s.pending.head? else none := by
  simp [State.rspData, hp]

/-- `cmd_ready` of a running unit, as an equation (R16, R130). -/
theorem State.cmdReady_running (hp : s.phase = .running) :
    s.cmdReady depth e = (!e.rst && (e.wishReady && s.hasRoom depth e)) := by
  simp [State.cmdReady, hp]

/-- `cmd_ready` before the first reset edge is free (R133, log entry 6). -/
theorem State.cmdReady_beforeFirstReset (hp : s.phase = .beforeFirstReset) :
    s.cmdReady depth e = (!e.rst && e.wishReady) := by
  simp [State.cmdReady, hp]

/-- `rsp_valid` of a running unit is 1 only without reset on a non-empty queue (R17, R130). -/
theorem State.rspValid_cases (hp : s.phase = .running) (h : s.rspValid e = true) :
    e.rst = false ∧ ∃ w rest, s.pending = w :: rest := by
  rw [State.rspValid_running hp] at h
  cases hq : s.pending with
  | nil => simp [hq] at h
  | cons w rest => cases hr : e.rst <;> simp [hr] at h ⊢

/-- A running unit delivers only at an edge without reset, on a non-empty queue, with the host ready (R17). -/
theorem State.delivers_cases (hp : s.phase = .running) (h : s.delivers e = true) :
    s.rspValid e = true ∧ e.rspReady = true ∧ ∃ w rest, s.pending = w :: rest := by
  unfold State.delivers at h
  obtain ⟨hv, hr⟩ := Bool.and_eq_true_iff.mp h
  exact ⟨hv, hr, (State.rspValid_cases hp hv).2⟩

/-- `cmd_ready` of a running unit is 1 only without reset and with room (R16, R130). -/
theorem State.cmdReady_cases (hp : s.phase = .running) (h : s.cmdReady depth e = true) :
    e.rst = false ∧ e.wishReady = true ∧
      (s.pending.length < depth ∨ s.pending.length = depth ∧ s.delivers e = true) := by
  simpa [State.cmdReady_running hp, State.hasRoom] using h

end outputs

/-- The response channel conserves what was taken followed by what is queued (R17, R25). -/
theorem State.responseChannel_conserves (s : State) (e : Edge) :
    (s.responseChannel e).taken ++ (s.responseChannel e).pending = s.taken ++ s.pending := by
  by_cases hd : s.delivers e = true
  · cases hq : s.pending <;> simp [hd, hq]
  · simp [hd]

/-- After the response channel has moved, a ready running unit has room for one more entry (R16). -/
theorem State.room_after_response {depth : Nat} {s : State} {e : Edge} (hr : s.phase = .running)
    (h : s.cmdReady depth e = true) : (s.responseChannel e).pending.length < depth := by
  obtain ⟨-, -, hlt | ⟨heq, hd⟩⟩ := State.cmdReady_cases hr h
  · by_cases hd : s.delivers e = true
    · simp [hd]; omega
    · simpa [hd] using hlt
  · obtain ⟨-, -, w, rest, hq⟩ := State.delivers_cases hr hd
    simp [hd, hq] at heq ⊢; omega

/-- Executing an instruction can only append one response (R15, R16). -/
theorem exec_cases {i : Instr} {s t : State} (h : exec i s = .next t) : ∃ w, t = s.accept w := by
  cases i <;> exact ⟨_, (Host.Outcome.next.inj h).symm⟩

/-- Executing an instruction never stops (R110). -/
theorem exec_answers (i : Instr) (s : State) : ∃ w, exec i s = .next (s.accept w) := by
  cases i <;> exact ⟨_, rfl⟩

/-- What the command channel can do: refuse an offered reserved word, execute an accepted command, or nothing. -/
theorem commandChannel_cases (ready : Bool) (e : Edge) (t : State) :
    (e.cmdValid = true ∧ decode e.cmd = none ∧
      commandChannel ready e t = .refused (.reservedCommand e.cmd.op)) ∨
    (∃ i, e.cmdValid = true ∧ ready = true ∧ decode e.cmd = some i ∧ commandChannel ready e t = exec i t) ∨
    ((e.cmdValid = false ∨ ready = false) ∧ (e.cmdValid = true → decode e.cmd ≠ none) ∧
      commandChannel ready e t = .next t) := by
  unfold commandChannel
  cases hv : e.cmdValid
  · exact .inr (.inr ⟨.inl rfl, by simp, by simp⟩)
  · cases hd : decode e.cmd with
    | none => exact .inl ⟨rfl, rfl, by simp⟩
    | some i =>
      cases ready
      · exact .inr (.inr ⟨.inr rfl, by simp, by simp⟩)
      · exact .inr (.inl ⟨i, rfl, rfl, rfl, by simp⟩)

/-- Every way one edge can answer with a next state: a reset edge (R130), or a running unit whose response channel
has moved and whose command channel has appended one response at an Accept, or nothing (R16, R17). -/
theorem clockEdge_cases {depth : Nat} {e : Edge} {s t : State} (h : clockEdge depth e s = .next t) :
    (e.rst = true ∧ t = s.resetEdge) ∨
    (e.rst = false ∧ s.phase = .running ∧
      ((∃ i w, s.accepts depth e = true ∧ decode e.cmd = some i ∧
          exec i (s.responseChannel e) = .next ((s.responseChannel e).accept w) ∧
          t = (s.responseChannel e).accept w) ∨
        (s.accepts depth e = false ∧ t = s.responseChannel e))) := by
  unfold clockEdge at h
  cases hr : e.rst
  · refine .inr ⟨rfl, ?_⟩
    cases hp : s.phase with
    | beforeFirstReset => simp [hr, hp] at h
    | running =>
      simp only [hr, hp, Bool.false_eq_true, if_false] at h
      refine ⟨rfl, ?_⟩
      obtain ⟨-, -, hc⟩ | ⟨i, hv, hready, hd, hc⟩ | ⟨hno, -, hc⟩ :=
        commandChannel_cases (s.cmdReady depth e) e (s.responseChannel e)
      · simp [hc] at h
      · obtain ⟨w, hw⟩ := exec_answers i (s.responseChannel e)
        refine .inl ⟨i, w, ?_, hd, hw, ?_⟩
        · simp [State.accepts, hv, hready]
        · rw [hc, hw] at h; exact (Host.Outcome.next.inj h).symm
      · refine .inr ⟨?_, ?_⟩
        · rcases hno with hv | hready <;> simp [State.accepts, *]
        · rw [hc] at h; exact (Host.Outcome.next.inj h).symm
  · refine .inl ⟨rfl, ?_⟩
    simp only [hr, if_true] at h
    exact (Host.Outcome.next.inj h).symm

/-- A step is the coming edge of the schedule, for the unit's capacity. -/
theorem step_eq (s : State) : step s = clockEdge Config.DEPTH s.nextEdge s.passEdge := rfl

/-- An edge never faults (R110). -/
theorem clockEdge_refusals {depth : Nat} {e : Edge} {s : State} {r : Refusal} (h : clockEdge depth e s = .refused r) :
    e.rst = false ∧ (s.phase = .beforeFirstReset ∧ r = .beforeFirstReset ∨
      s.phase = .running ∧ e.cmdValid = true ∧ decode e.cmd = none ∧ r = .reservedCommand e.cmd.op) := by
  unfold clockEdge at h
  cases hr : e.rst
  · refine ⟨rfl, ?_⟩
    cases hp : s.phase with
    | beforeFirstReset => simp [hr, hp] at h; exact .inl ⟨rfl, h.symm⟩
    | running =>
      simp only [hr, hp, Bool.false_eq_true, if_false] at h
      obtain ⟨hv, hd, hc⟩ | ⟨i, -, -, -, hc⟩ | ⟨-, -, hc⟩ :=
        commandChannel_cases (s.cmdReady depth e) e (s.responseChannel e)
      · rw [hc] at h; exact .inr ⟨rfl, hv, hd, (Host.Outcome.refused.inj h).symm⟩
      · obtain ⟨w, hw⟩ := exec_answers i (s.responseChannel e)
        rw [hc, hw] at h; cases h
      · rw [hc] at h; cases h
  · simp [hr] at h

end Sys2Proof.Machine
end

