-- ==== Sys2Proof/Laws/PerInstr.lean ====
section
/-! SUPPORT. Laws/PerInstr.lean: statements about every instruction as syntax, one lemma per constructor. -/

namespace Sys2Proof.Laws.EncodesItsCommandWord

/-- The encoding's command word is the one of the instruction's operation and format (spec/30_encoding.md R36, R37),
and it is not reserved, whatever stands in the unused bits. -/
def Statement (i : Instr) : Prop :=
  ∀ j : Command, (encodeOver j i).op = commandWord i.fmt i.operation ∧ (encodeOver j i).WellFormed = true

theorem of_word {i : Instr} {F : Fmt} {o : Operation} {w : BitVec 4}
    (hw : (fun j => (encodeOver j i).op, i.fmt, i.operation) = (fun _ => w, F, o))
    (h : w = commandWord F o ∧ reservedWord w = false) : Statement i := by
  intro j
  obtain ⟨h1, h2, h3⟩ : (fun j => (encodeOver j i).op) = (fun _ => w) ∧ i.fmt = F ∧ i.operation = o := by
    simpa using hw
  have hj := congrFun h1 j
  simp [Command.WellFormed, hj, h2, h3, ← h.1, h.2]

theorem add128 (a b : BitVec 128) : Statement (.add128 a b) := of_word (F := .f128) (o := .add) (w := 0x0#4) rfl (by decide)
theorem sub128 (a b : BitVec 128) : Statement (.sub128 a b) := of_word (F := .f128) (o := .sub) (w := 0x1#4) rfl (by decide)
theorem mul128 (a b : BitVec 128) : Statement (.mul128 a b) := of_word (F := .f128) (o := .mul) (w := 0x2#4) rfl (by decide)
theorem quo128 (a b : BitVec 128) : Statement (.quo128 a b) := of_word (F := .f128) (o := .quo) (w := 0x3#4) rfl (by decide)
theorem sqrt128 (a : BitVec 128) : Statement (.sqrt128 a) := of_word (F := .f128) (o := .sqrt) (w := 0x4#4) rfl (by decide)
theorem fma128 (a b c : BitVec 128) : Statement (.fma128 a b c) := of_word (F := .f128) (o := .fma) (w := 0x5#4) rfl (by decide)
theorem class128 (a : BitVec 128) : Statement (.class128 a) := of_word (F := .f128) (o := .classify) (w := 0x6#4) rfl (by decide)
theorem add256 (a b : BitVec 256) : Statement (.add256 a b) := of_word (F := .f256) (o := .add) (w := 0x8#4) rfl (by decide)
theorem sub256 (a b : BitVec 256) : Statement (.sub256 a b) := of_word (F := .f256) (o := .sub) (w := 0x9#4) rfl (by decide)
theorem mul256 (a b : BitVec 256) : Statement (.mul256 a b) := of_word (F := .f256) (o := .mul) (w := 0xA#4) rfl (by decide)
theorem quo256 (a b : BitVec 256) : Statement (.quo256 a b) := of_word (F := .f256) (o := .quo) (w := 0xB#4) rfl (by decide)
theorem sqrt256 (a : BitVec 256) : Statement (.sqrt256 a) := of_word (F := .f256) (o := .sqrt) (w := 0xC#4) rfl (by decide)
theorem fma256 (a b c : BitVec 256) : Statement (.fma256 a b c) := of_word (F := .f256) (o := .fma) (w := 0xD#4) rfl (by decide)
theorem class256 (a : BitVec 256) : Statement (.class256 a) := of_word (F := .f256) (o := .classify) (w := 0xE#4) rfl (by decide)

end Sys2Proof.Laws.EncodesItsCommandWord
end

