-- ==== Sys2Proof/Laws/Sqrt.lean ====
section
/-! SUPPORT. Laws/Sqrt.lean: one step of the root extraction keeps its loop's invariant (spec/45_sqrt.md R91). -/

namespace Sys2Proof.Machine

/-- What holds of `(root, rem)` after the bits of `v` down to bit `2i` have been brought down: `root` is the integer
root of those bits and `rem` its remainder (R91). -/
def RootOf (v i : Nat) (st : Nat × Nat) : Prop := st.1 * st.1 + st.2 = v / 4 ^ i ∧ st.2 ≤ 2 * st.1

/-- A step in arithmetic form: bring down two bits, try `4*root + 1` (R91). -/
theorem sqrtStep_eq (v i : Nat) (st : Nat × Nat) :
    sqrtStep v i st =
      if 4 * st.1 + 1 ≤ 4 * st.2 + v / 4 ^ i % 4 then (2 * st.1 + 1, 4 * st.2 + v / 4 ^ i % 4 - (4 * st.1 + 1))
      else (2 * st.1, 4 * st.2 + v / 4 ^ i % 4) := by
  have hand : (v >>> (2 * i)) &&& 3 = v / 4 ^ i % 4 := by
    rw [Nat.shiftRight_eq_div_pow, Nat.pow_mul, show (3 : Nat) = 2 ^ 2 - 1 by norm_num, Nat.and_two_pow_sub_one_eq_mod]
  have hrem : (st.2 <<< 2) ||| (v / 4 ^ i % 4) = 4 * st.2 + v / 4 ^ i % 4 := by
    rw [← Nat.shiftLeft_add_eq_or_of_lt (by omega), Nat.shiftLeft_eq]; omega
  have htrial : (st.1 <<< 2) ||| 1 = 4 * st.1 + 1 := by
    rw [← Nat.shiftLeft_add_eq_or_of_lt (by norm_num), Nat.shiftLeft_eq]; omega
  have hroot : (st.1 <<< 1) ||| 1 = 2 * st.1 + 1 := by
    rw [← Nat.shiftLeft_add_eq_or_of_lt (by norm_num), Nat.shiftLeft_eq]; omega
  have hshift : st.1 <<< 1 = 2 * st.1 := by rw [Nat.shiftLeft_eq]; omega
  simp only [sqrtStep, hand, hrem, htrial, hroot, ge_iff_le]
  split_ifs <;> simp [hshift]

/-- One step moves the loop's invariant two bits down. -/
theorem sqrtStep_keeps_RootOf {v i : Nat} {st : Nat × Nat} (h : RootOf v (i + 1) st) : RootOf v i (sqrtStep v i st) := by
  obtain ⟨r, m⟩ := st
  obtain ⟨heq, hle⟩ := h
  simp only at heq hle
  have hdiv : v / 4 ^ (i + 1) = v / 4 ^ i / 4 := by rw [pow_succ, Nat.div_div_eq_div_mul]
  rw [hdiv] at heq
  rw [sqrtStep_eq]
  set w := v / 4 ^ i
  have hw : w = 4 * (r * r + m) + w % 4 := by rw [heq]; omega
  simp only [RootOf]
  split_ifs with hc
  · refine ⟨?_, by simp only; omega⟩
    have : (2 * r + 1) * (2 * r + 1) = 4 * (r * r) + (4 * r + 1) := by ring
    simp only [this]; omega
  · refine ⟨?_, by simp only; omega⟩
    have : (2 * r) * (2 * r) = 4 * (r * r) := by ring
    simp only [this]; omega

end Sys2Proof.Machine
end

