-- ==== Sys2Proof/Tests/Slice0.lean ====
section
/-! SUPPORT. Tests/Slice0.lean: the model's own tests. Expected results are the spec's printed vectors
(spec/95_test_vectors.md to spec/98_programs.md) and rules; a witness theorem shows a concrete input that meets all
hypotheses of one statement of Certificates/Slice0/Obligations.lean. -/

namespace Sys2Proof.Tests

open Sys2Proof Sys2Proof.Machine

-- One proof at a time: side by side, the kernel evaluations below ask for more threads than the check allows.
set_option Elab.async false

/-! ### Well-formedness: each check refuses an ill-formed term -/

theorem test_wf_refuses_reserved_7 : Command.WellFormed ⟨0x7#4, 0, 0, 0⟩ = false := by decide
theorem test_wf_refuses_reserved_F : Command.WellFormed ⟨0xF#4, 1, 2, 3⟩ = false := by decide
theorem test_wf_accepts_class : Command.WellFormed ⟨0xE#4, 0, 0, 0⟩ = true := by decide
/-- `add.128` with one operand. -/
theorem test_wf_refuses_missing_operand :
    AsmLine.WellFormed 3 ⟨.add, .f128, [.response 0]⟩ = false := by decide
/-- `sqrt.128` of a literal one digit short of 32. -/
theorem test_wf_refuses_short_literal :
    AsmLine.WellFormed 0 ⟨.sqrt, .f128, [.literal (List.replicate 31 0)]⟩ = false := by decide
/-- Line 1 refers to its own response. -/
theorem test_wf_refuses_own_response : AsmLine.WellFormed 1 ⟨.sqrt, .f256, [.response 1]⟩ = false := by decide
/-- `fma.128 0x4000…, 0x4000…, $0` as line 1 of a stream (program P1). -/
theorem test_wf_accepts_fma_line :
    AsmLine.WellFormed 1 ⟨.fma, .f128,
      [.literal (4 :: List.replicate 31 0), .literal (4 :: List.replicate 31 0), .response 0]⟩ = true := by decide
/-- The line's command: the format and operation bits, the literals, and response 0 cut to 128 bits. -/
theorem test_asm_line_command :
    AsmLine.command [0xFF0000000000000000000000000000000040022000000000000000000000000000]
      ⟨.fma, .f128, [.literal (4 :: List.replicate 31 0), .literal (4 :: List.replicate 31 0), .response 0]⟩ =
    some ⟨0x5#4, 0x40000000000000000000000000000000, 0x40000000000000000000000000000000,
      0x40022000000000000000000000000000⟩ := by decide +kernel
/-- A reference to a response not taken yet has no command. -/
theorem test_asm_line_waits : AsmLine.command [] ⟨.sqrt, .f128, [.response 0]⟩ = none := by decide

/-! ### Decoding: each command word, written out bit by bit (R37) -/

theorem test_decode_add128 : decode ⟨0b0000#4, 1, 2, 3⟩ = some (.add128 1 2) := by decide
theorem test_decode_sub128 : decode ⟨0b0001#4, 1, 2, 3⟩ = some (.sub128 1 2) := by decide
theorem test_decode_mul128 : decode ⟨0b0010#4, 1, 2, 3⟩ = some (.mul128 1 2) := by decide
theorem test_decode_quo128 : decode ⟨0b0011#4, 1, 2, 3⟩ = some (.quo128 1 2) := by decide
theorem test_decode_sqrt128 : decode ⟨0b0100#4, 1, 2, 3⟩ = some (.sqrt128 1) := by decide
theorem test_decode_fma128 : decode ⟨0b0101#4, 1, 2, 3⟩ = some (.fma128 1 2 3) := by decide
theorem test_decode_class128 : decode ⟨0b0110#4, 1, 2, 3⟩ = some (.class128 1) := by decide
theorem test_decode_add256 : decode ⟨0b1000#4, 1, 2, 3⟩ = some (.add256 1 2) := by decide
theorem test_decode_sub256 : decode ⟨0b1001#4, 1, 2, 3⟩ = some (.sub256 1 2) := by decide
theorem test_decode_mul256 : decode ⟨0b1010#4, 1, 2, 3⟩ = some (.mul256 1 2) := by decide
theorem test_decode_quo256 : decode ⟨0b1011#4, 1, 2, 3⟩ = some (.quo256 1 2) := by decide
theorem test_decode_sqrt256 : decode ⟨0b1100#4, 1, 2, 3⟩ = some (.sqrt256 1) := by decide
theorem test_decode_fma256 : decode ⟨0b1101#4, 1, 2, 3⟩ = some (.fma256 1 2 3) := by decide
theorem test_decode_class256 : decode ⟨0b1110#4, 1, 2, 3⟩ = some (.class256 1) := by decide
theorem test_decode_reserved : decode ⟨0b0111#4, 1, 2, 3⟩ = none ∧ decode ⟨0b1111#4, 1, 2, 3⟩ = none := by decide
/-- Vector I1: bits 255:128 of the operand ports are ignored. -/
theorem test_decode_ignores_high_bits :
    decode ⟨0x0#4, 0xFFFFFFFFFFFFFFFFFFFFFFFFFFFFFFFF3FFF0000000000000000000000000000,
      0x000000DEADBEEF00000000000000000040000000000000000000000000000000, 5⟩ =
    some (.add128 0x3FFF0000000000000000000000000000 0x40000000000000000000000000000000) := by decide
theorem test_table_word : decodeTableWord 8 0xC = some (.sqrt256 0) := by decide
theorem test_table_word_reserved : decodeTableWord 8 0x7 = none := by decide

/-! ### One step on a command offered right after reset: the spec's printed vectors -/

/-- The queue after one step from reset at which a command is offered and accepted. -/
def responsesAfter (op : BitVec 4) (a b c : Word) : Option (List Word) :=
  match step { State.reset with inputs := [State.reset.offerEdge Config.DEPTH ⟨op, a, b, c⟩] } with
  | .next t => some t.pending
  | _ => none

/-- The machine runs a table word as its first command after reset: `0 / 0` is the quiet NaN. -/
theorem test_fetch_word_runs :
    (match step (State.reset.withFetchWord 8 3) with | .next t => t.pending | _ => []) =
      [0x7FFF8000000000000000000000000000] := by decide

/-- Vector A19.128. -/
theorem test_add_carries_back_up_128 :
    responsesAfter 0x0
      0x3FFF0000000000000000000000000000
      0x80000000000000000000000000000001 0 =
      some [0x3FFF0000000000000000000000000000] := by decide +kernel

/-- Vector A19.256. -/
theorem test_add_carries_back_up_256 :
    responsesAfter 0x8
      0x3FFFF00000000000000000000000000000000000000000000000000000000000
      0x8000000000000000000000000000000000000000000000000000000000000001 0 =
      some [0x3FFFF00000000000000000000000000000000000000000000000000000000000] := by decide +kernel

/-- Vector A13.128. -/
theorem test_add_overflows_on_the_tie_128 :
    responsesAfter 0x0
      0x7FFEFFFFFFFFFFFFFFFFFFFFFFFFFFFF
      0x7F8D0000000000000000000000000000 0 =
      some [0x7FFF0000000000000000000000000000] := by decide +kernel

/-- Vector A13.256. -/
theorem test_add_overflows_on_the_tie_256 :
    responsesAfter 0x8
      0x7FFFEFFFFFFFFFFFFFFFFFFFFFFFFFFFFFFFFFFFFFFFFFFFFFFFFFFFFFFFFFFF
      0x7FF1100000000000000000000000000000000000000000000000000000000000 0 =
      some [0x7FFFF00000000000000000000000000000000000000000000000000000000000] := by decide +kernel

/-- Vector B14.128. -/
theorem test_sub_ties_to_even_128 :
    responsesAfter 0x1
      0x3FFF0000000000000000000000000000
      0x3F8D0000000000000000000000000000 0 =
      some [0x3FFF0000000000000000000000000000] := by decide +kernel

/-- Vector B14.256. -/
theorem test_sub_ties_to_even_256 :
    responsesAfter 0x9
      0x3FFFF00000000000000000000000000000000000000000000000000000000000
      0x3FF1100000000000000000000000000000000000000000000000000000000000 0 =
      some [0x3FFFF00000000000000000000000000000000000000000000000000000000000] := by decide +kernel

/-- Vector B4.128. -/
theorem test_sub_of_zeros_is_plus_zero_128 :
    responsesAfter 0x1
      0x00000000000000000000000000000000
      0x00000000000000000000000000000000 0 =
      some [0x00000000000000000000000000000000] := by decide +kernel

/-- Vector B4.256. -/
theorem test_sub_of_zeros_is_plus_zero_256 :
    responsesAfter 0x9
      0x0000000000000000000000000000000000000000000000000000000000000000
      0x0000000000000000000000000000000000000000000000000000000000000000 0 =
      some [0x0000000000000000000000000000000000000000000000000000000000000000] := by decide +kernel

/-- Vector M14.128. -/
theorem test_mul_rounds_once_128 :
    responsesAfter 0x2
      0x3FFE0000000000000000000000000001
      0x00014000000000000000000000000000 0 =
      some [0x0000A000000000000000000000000001] := by decide +kernel

/-- Vector M14.256. -/
theorem test_mul_rounds_once_256 :
    responsesAfter 0xA
      0x3FFFE00000000000000000000000000000000000000000000000000000000001
      0x0000140000000000000000000000000000000000000000000000000000000000 0 =
      some [0x00000A0000000000000000000000000000000000000000000000000000000001] := by decide +kernel

/-- Vector M13c.128. -/
theorem test_mul_ties_to_even_subnormal_128 :
    responsesAfter 0x2
      0x00000000000000000000000000000003
      0x3FFE0000000000000000000000000000 0 =
      some [0x00000000000000000000000000000002] := by decide +kernel

/-- Vector M13c.256. -/
theorem test_mul_ties_to_even_subnormal_256 :
    responsesAfter 0xA
      0x0000000000000000000000000000000000000000000000000000000000000003
      0x3FFFE00000000000000000000000000000000000000000000000000000000000 0 =
      some [0x0000000000000000000000000000000000000000000000000000000000000002] := by decide +kernel

/-- Vector Q20.128. -/
theorem test_quo_sticky_decides_128 :
    responsesAfter 0x3
      0x3FFF0000000000000000000000000000
      0x3FFEFFFFFFFFFFFFFFFFFFFFFFFFFFFF 0 =
      some [0x3FFF0000000000000000000000000001] := by decide +kernel

/-- Vector Q20.256. -/
theorem test_quo_sticky_decides_256 :
    responsesAfter 0xB
      0x3FFFF00000000000000000000000000000000000000000000000000000000000
      0x3FFFEFFFFFFFFFFFFFFFFFFFFFFFFFFFFFFFFFFFFFFFFFFFFFFFFFFFFFFFFFFF 0 =
      some [0x3FFFF00000000000000000000000000000000000000000000000000000000001] := by decide +kernel

/-- Vector Q1.128. -/
theorem test_quo_preshifts_128 :
    responsesAfter 0x3
      0x3FFF0000000000000000000000000000
      0x40008000000000000000000000000000 0 =
      some [0x3FFD5555555555555555555555555555] := by decide +kernel

/-- Vector Q1.256. -/
theorem test_quo_preshifts_256 :
    responsesAfter 0xB
      0x3FFFF00000000000000000000000000000000000000000000000000000000000
      0x4000080000000000000000000000000000000000000000000000000000000000 0 =
      some [0x3FFFD55555555555555555555555555555555555555555555555555555555555] := by decide +kernel

/-- Vector S11.128. -/
theorem test_sqrt_of_largest_has_no_carry_128 :
    responsesAfter 0x4
      0x7FFEFFFFFFFFFFFFFFFFFFFFFFFFFFFF 0 0 =
      some [0x5FFEFFFFFFFFFFFFFFFFFFFFFFFFFFFF] := by decide +kernel

/-- Vector S11.256. -/
theorem test_sqrt_of_largest_has_no_carry_256 :
    responsesAfter 0xC
      0x7FFFEFFFFFFFFFFFFFFFFFFFFFFFFFFFFFFFFFFFFFFFFFFFFFFFFFFFFFFFFFFF 0 0 =
      some [0x5FFFEFFFFFFFFFFFFFFFFFFFFFFFFFFFFFFFFFFFFFFFFFFFFFFFFFFFFFFFFFFF] := by decide +kernel

/-- Vector S4.128. -/
theorem test_sqrt_keeps_minus_zero_128 :
    responsesAfter 0x4
      0x80000000000000000000000000000000 0 0 =
      some [0x80000000000000000000000000000000] := by decide +kernel

/-- Vector S4.256. -/
theorem test_sqrt_keeps_minus_zero_256 :
    responsesAfter 0xC
      0x8000000000000000000000000000000000000000000000000000000000000000 0 0 =
      some [0x8000000000000000000000000000000000000000000000000000000000000000] := by decide +kernel

/-- Vector F3.128. -/
theorem test_fma_differs_from_mul_then_add_128 :
    responsesAfter 0x5
      0x3FFF0000000000000000000000000001
      0x3FFF0000000000000000000000000001
      0xBFFF0000000000000000000000000002 =
      some [0x3F1F0000000000000000000000000000] := by decide +kernel

/-- Vector F3.256. -/
theorem test_fma_differs_from_mul_then_add_256 :
    responsesAfter 0xD
      0x3FFFF00000000000000000000000000000000000000000000000000000000001
      0x3FFFF00000000000000000000000000000000000000000000000000000000001
      0xBFFFF00000000000000000000000000000000000000000000000000000000002 =
      some [0x3FE2700000000000000000000000000000000000000000000000000000000000] := by decide +kernel

/-- Vector F9.128. -/
theorem test_fma_infinite_addend_128 :
    responsesAfter 0x5
      0x7FFEFFFFFFFFFFFFFFFFFFFFFFFFFFFF
      0x7FFEFFFFFFFFFFFFFFFFFFFFFFFFFFFF
      0xFFFF0000000000000000000000000000 =
      some [0xFFFF0000000000000000000000000000] := by decide +kernel

/-- Vector F9.256. -/
theorem test_fma_infinite_addend_256 :
    responsesAfter 0xD
      0x7FFFEFFFFFFFFFFFFFFFFFFFFFFFFFFFFFFFFFFFFFFFFFFFFFFFFFFFFFFFFFFF
      0x7FFFEFFFFFFFFFFFFFFFFFFFFFFFFFFFFFFFFFFFFFFFFFFFFFFFFFFFFFFFFFFF
      0xFFFFF00000000000000000000000000000000000000000000000000000000000 =
      some [0xFFFFF00000000000000000000000000000000000000000000000000000000000] := by decide +kernel

/-- Vector CL4.128. -/
theorem test_class_negative_subnormal_128 :
    responsesAfter 0x6
      0x8000FFFFFFFFFFFFFFFFFFFFFFFFFFFF 0 0 =
      some [0x00000000000000000000000000000018] := by decide +kernel

/-- Vector CL4.256. -/
theorem test_class_negative_subnormal_256 :
    responsesAfter 0xE
      0x80000FFFFFFFFFFFFFFFFFFFFFFFFFFFFFFFFFFFFFFFFFFFFFFFFFFFFFFFFFFF 0 0 =
      some [0x0000000000000000000000000000000000000000000000000000000000000018] := by decide +kernel

/-- Vector CL11.128. -/
theorem test_class_negative_nan_128 :
    responsesAfter 0x6
      0xFFFF0000000000000000000000000001 0 0 =
      some [0x00000000000000000000000000000011] := by decide +kernel

/-- Vector CL11.256. -/
theorem test_class_negative_nan_256 :
    responsesAfter 0xE
      0xFFFFF00000000000000000000000000000000000000000000000000000000001 0 0 =
      some [0x0000000000000000000000000000000000000000000000000000000000000011] := by decide +kernel

/-! ### The shared functions (spec/95_test_vectors.md section 2.1) -/

/-- Vectors RN3, RN5, RN7. -/
theorem test_rne_ties : rne 0b1110 2 = 4 ∧ rne 0b10 2 = 0 ∧ rne 0b1111 1 = 8 := by decide
/-- Vectors SH1, SH3, SH6. -/
theorem test_shrcompress : shrcompress 0b101100 3 = 0b101 ∧ shrcompress 0b100100 3 = 0b101 ∧
    shrcompress 0b1011 1000 = 1 := by decide +kernel
/-- Vectors SR1, SR5. -/
theorem test_sqrtRem : sqrtRem 10 2 = (3, 1) ∧ sqrtRem 512 5 = (22, 28) := by decide
/-- Vector NT4. -/
theorem test_normalize_subnormal :
    normalize .f128 0x80000000000000000000000000000003#128 = ⟨true, -16493, 3 * 2 ^ 111⟩ := by decide +kernel
/-- Vectors RP8, RP11. -/
theorem test_roundPack_subnormal :
    roundPack .f128 true 1 (-16382 - 112 - 1) = 0x80000000000000000000000000000000#128 ∧
    roundPack .f128 false (2 ^ 113 - 1) (-16382 - 112 - 1) = 0x00010000000000000000000000000000#128 := by decide +kernel
/-- Vector RP4. -/
theorem test_roundPack_overflow :
    roundPack .f128 false (2 ^ 114 - 1) (16383 - 112 - 1) = 0x7FFF0000000000000000000000000000#128 := by decide +kernel
/-- A 64-bit word and a byte of a value in the host's convention (R21). -/
theorem test_host_word_order :
    hostWord .f128 0x40014000000000000000000000000AB1#128 1 = 0x4001400000000000#64 ∧
    hostByte .f128 0x40014000000000000000000000000AB1#128 1 = 0x0A#8 := by decide

/-! ### The clock edge: program P5 of spec/98_programs.md, `DEPTH = 2` -/

/-- Some command that is not reserved: `class.128 +0`, whose response is 4. -/
def someCommand : Command := ⟨0x6#4, 0, 0, 0⟩

/-- An edge without reset at which the unit wishes to be ready and to offer. -/
def busyEdge (cmdValid rspReady : Bool) : Edge :=
  { rst := false, cmdValid := cmdValid, cmd := someCommand, rspReady := rspReady, wishReady := true, wishValid := true }

/-- A reset edge at which the host offers a command. -/
def resetEdge : Edge := { busyEdge true true with rst := true }

/-- A full queue of capacity 2 whose head has been offered. -/
def fullState : State := { State.reset with pending := [3, 15], offered := true }

/-- Edge 3 of P5: the queue is full and nothing is taken, so the unit is not ready. -/
theorem test_full_queue_not_ready : fullState.cmdReady 2 (busyEdge true false) = false := by decide
/-- Edge 4 of P5: the same queue is ready at an edge that takes its head; the head goes, the new response comes. -/
theorem test_full_queue_ready_when_drained :
    (match clockEdge 2 (busyEdge true true) fullState with | .next t => (t.pending, t.taken) | _ => ([], [])) =
      ([15, 4], [3]) := by decide +kernel
/-- Edge 7 of P5: at a reset edge neither handshake output is 1 and the queue is lost. -/
theorem test_reset_discards :
    (match clockEdge 2 resetEdge fullState with | .next t => some (t.pending, t.taken) | _ => none) = some ([], []) ∧
      fullState.rspValid resetEdge = false ∧ fullState.cmdReady 2 resetEdge = false := by decide
/-- Edge 2 of P5: a command accepted at an edge is not delivered at it. -/
theorem test_not_delivered_when_accepted :
    (match clockEdge 2 (busyEdge true true) State.reset with | .next t => (t.pending, t.taken) | _ => ([], [])) =
      ([4], []) := by decide +kernel
/-- A reserved word offered is refused even while the unit is not ready. -/
theorem test_reserved_refused :
    (match clockEdge 2 { busyEdge true false with cmd := ⟨0x7#4, 0, 0, 0⟩ } fullState with
      | .refused r => some r | _ => none) = some (.reservedCommand 0x7#4) := by decide
/-- At a reset edge a reserved word is not looked at. -/
theorem test_reset_wins_over_reserved :
    (match clockEdge 2 { resetEdge with cmd := ⟨0xF#4, 0, 0, 0⟩ } fullState with
      | .next t => some t.pending | _ => none) = some [] := by decide
/-- Before the first reset there is no step. -/
theorem test_no_step_before_reset :
    (match clockEdge 2 (busyEdge false true) (State.powerUp [7] true []) with
      | .refused r => some r | _ => none) = some .beforeFirstReset := by decide
/-- Before the first reset edge the outputs are as the unit wishes, on an empty queue and on an overfull one, and the
data is not exposed (R133, U4). -/
theorem test_outputs_free_before_reset :
    (State.powerUp [] false []).rspValid { busyEdge true true with wishValid := true } = true ∧
      (State.powerUp [7] true []).rspValid { busyEdge true true with wishValid := false } = false ∧
      (State.powerUp [1, 2, 3] true []).cmdReady 2 (busyEdge true false) = true ∧
      (State.powerUp [7] true []).rspData (busyEdge true true) = none := by decide
/-- The first reset edge starts the unit. -/
theorem test_first_reset_starts :
    (match clockEdge 2 resetEdge (State.powerUp [7] true []) with
      | .next t => some (t.pending, t.phase) | _ => none) = some ([], .running) := by decide

/-! ### Witnesses: a concrete input that meets all hypotheses of a statement together -/

/-- A running state about to accept `quo.128 0, 0`. -/
def acceptingState : State := State.reset.withFetchWord 8 3

theorem witness_StepRunsTheAcceptedCommand :
    acceptingState.phase = .running ∧ acceptingState.nextEdge.rst = false ∧ acceptingState.nextEdge.cmdValid = true ∧
      decode acceptingState.nextEdge.cmd = some (.quo128 0 0) ∧
      acceptingState.passEdge.cmdReady Config.DEPTH acceptingState.nextEdge = true := by decide

theorem witness_EdgeMovesTheQueue :
    acceptingState.phase = .running ∧ acceptingState.nextEdge.rst = false ∧
      (acceptingState.nextEdge.cmdValid = true → reservedWord acceptingState.nextEdge.cmd.op = false) := by decide

theorem witness_DecodeReadsEveryNamedBit_some : decode someCommand = some (.class128 0) := by decide
theorem witness_ExecIsTheSpecifiedResponse : commandResponse someCommand = some 4 := by decide +kernel
theorem witness_UnusedBitsDoNotMatter : decode someCommand = some (.class128 0) := by decide
theorem witness_NarrowResponsesAreZeroExtended :
    someCommand.op.getLsbD 3 = false ∧ commandResponse someCommand = some 4 := by decide +kernel

/-- A running state at which the host offers the reserved word `w`. -/
def reservedState (w : BitVec 4) : State :=
  { State.reset with inputs := [{ busyEdge true false with cmd := ⟨w, 0, 0, 0⟩ }] }

theorem witness_OnlyReservedWordsStopTheUnit :
    (reservedState 0x7#4).phase = .running ∧ (reservedState 0x7#4).nextEdge.rst = false ∧
      (reservedState 0x7#4).nextEdge.cmdValid = true ∧ (reservedState 0x7#4).nextEdge.cmd.op = 0x7#4 ∧
      (reservedState 0xF#4).nextEdge.cmd.op = 0xF#4 ∧
      reservedWord (reservedState 0x7#4).nextEdge.cmd.op = true := by decide

theorem witness_ResetEdgeEmptiesTheQueue :
    ({ fullState with inputs := [resetEdge] } : State).nextEdge.rst = true := by decide

theorem witness_NoStepBeforeTheFirstReset :
    (State.powerUp [7] true []).phase = .beforeFirstReset ∧ (State.powerUp [7] true []).nextEdge.rst = false := by decide

/-- The invariant holds of a state and the state steps. -/
theorem witness_EveryStepKeepsQueueInvariant :
    Inv State.reset ∧ step State.reset = .next State.reset := by
  refine ⟨fun _ => ⟨Nat.zero_le _, by decide, by simp⟩, rfl⟩

/-- Two units with different pasts and the same inputs, reset first, and one more step. -/
theorem witness_ResetForgetsThePast :
    ({ fullState with inputs := [resetEdge] } : State).inputs = ({ State.reset with inputs := [resetEdge] } : State).inputs ∧
      ({ fullState with inputs := [resetEdge] } : State).nextEdge.rst = true ∧
      Host.Core.run core (1 + 1) { fullState with inputs := [resetEdge] } = .next State.reset := ⟨rfl, rfl, rfl⟩

/-- With room, and full with a Deliver at the same edge. -/
theorem witness_ReadyOnlyWithRoom :
    State.reset.phase = .running ∧ State.reset.cmdReady 2 (busyEdge true false) = true ∧
      fullState.phase = .running ∧ fullState.cmdReady 2 (busyEdge true true) = true := by decide

theorem witness_OffersOnlyTheHead :
    fullState.phase = .running ∧ fullState.rspValid (busyEdge true false) = true ∧
      fullState.rspData (busyEdge true false) = some 3 := by decide

/-- A state whose head is offered and not taken at the coming edge. -/
def heldState : State := { fullState with inputs := [busyEdge false false] }

theorem witness_OfferedResponseIsHeld :
    step heldState = .next fullState ∧ heldState.rspValid heldState.nextEdge = true ∧
      heldState.nextEdge.rspReady = false ∧ fullState.nextEdge.rst = false := ⟨rfl, rfl, rfl, rfl⟩

/-- A full queue whose head has been offered: both outputs 1 is legal when the host takes the head. A unit not yet
reset meets the premise with any outputs. -/
theorem witness_EveryLegalHandshakeOccurs :
    (busyEdge true true).rst = false ∧ fullState.phase = .running ∧ (State.powerUp [] false []).phase ≠ .running ∧
      fullState.pending ≠ [] ∧ (fullState.pending.length = 2 ∧ true = true ∧ (busyEdge true true).rspReady = true) := by decide

theorem witness_ResponsesComeInOrderOfAcceptance :
    fullState.phase = .running ∧ NoReset 1 heldState ∧ Host.Core.run core 1 heldState = .next fullState := by
  refine ⟨rfl, ?_, rfl⟩
  intro e he
  have : e = busyEdge false false := by simpa [heldState] using he
  rw [this]; rfl

/-! The endless run: the host offers `class.128 +0` at every edge and takes every response; the unit is as quick as it
may be. -/

/-- The host offers the command and takes what is offered at every edge. -/
def endlessEnv (_ : Nat) : Edge := busyEdge true true

/-- The state after `n` edges. -/
def endlessState : Nat → State
  | 0 => State.reset
  | n + 1 => { State.reset with pending := [4], taken := List.replicate n 4 }

theorem someCommand_executes (s : State) : exec (.class128 0) s = .next (s.accept 4) := rfl

theorem endless_ready (n : Nat) : (endlessState n).cmdReady Config.DEPTH (endlessEnv n) = true := by
  have h := DEPTH_pos
  cases n with
  | zero => simp [State.cmdReady, State.hasRoom, endlessState, endlessEnv, busyEdge, h]
  | succ n =>
    simp only [State.cmdReady, State.hasRoom, State.delivers, State.rspValid, endlessState, endlessEnv, busyEdge]
    simp; omega

theorem endless_run (n : Nat) : runOn endlessEnv State.reset n = .next (endlessState n) := by
  induction n with
  | zero => rfl
  | succ n ih =>
    have hready := endless_ready n
    have hcmd : decode (endlessEnv n).cmd = some (.class128 0) := by rfl
    have hrst : (endlessEnv n).rst = false := rfl
    have hvalid : (endlessEnv n).cmdValid = true := rfl
    have hphase : (endlessState n).phase = .running := by cases n <;> rfl
    simp only [runOn, ih, clockEdge, hrst, hphase, commandChannel, hvalid, hcmd, hready, someCommand_executes,
      Bool.false_eq_true, if_false, if_true]
    cases n with
    | zero => rfl
    | succ n =>
      have : (endlessState (n + 1)).responseChannel (endlessEnv (n + 1)) =
          { State.reset with taken := List.replicate n 4 ++ [4] } := rfl
      rw [this, ← List.replicate_succ']
      rfl

/-- The run never stops, there is no reset, the unit makes progress and the host takes what is offered. -/
theorem witness_EveryQueuedResponseIsTaken :
    State.reset.phase = .running ∧ (∀ n, (endlessEnv n).rst = false) ∧ Endless endlessEnv State.reset ∧
      OffersEventually endlessEnv State.reset ∧ TakesEventually endlessEnv State.reset ∧
      runOn endlessEnv State.reset 1 = .next { State.reset with pending := [4] } := by
  refine ⟨rfl, fun _ => rfl, fun n => ⟨_, endless_run n⟩, ?_, fun n _ _ _ => ⟨n, le_rfl, rfl⟩, endless_run 1⟩
  intro n t ht hp
  refine ⟨n, t, le_rfl, ht, ?_⟩
  rw [endless_run] at ht
  cases Host.Outcome.next.inj ht
  cases n with
  | zero => exact absurd rfl hp
  | succ n => rfl

theorem witness_PersistentCommandIsAccepted :
    Inv State.reset ∧ ReadyEventually endlessEnv State.reset ∧ (∀ m, 0 ≤ m → (endlessEnv m).cmdValid = true) := by
  refine ⟨witness_EveryStepKeepsQueueInvariant.1, ?_, fun _ _ => rfl⟩
  intro n t ht _
  rw [endless_run] at ht
  cases Host.Outcome.next.inj ht
  exact ⟨n, _, le_rfl, endless_run n, endless_ready n⟩

/-! Witnesses for the statements about values. -/

/-- The smallest subnormal, the largest subnormal and the largest finite value are finite and non-zero. -/
theorem witness_NormalizeKeepsTheValue :
    FiniteNonzero .f128 0x00000000000000000000000000000001#128 ∧
      FiniteNonzero .f128 0x8000FFFFFFFFFFFFFFFFFFFFFFFFFFFF#128 ∧
      FiniteNonzero .f128 0x7FFEFFFFFFFFFFFFFFFFFFFFFFFFFFFF#128 ∧
      bexp .f128 0x00000000000000000000000000000001#128 = 0 ∧
      bexp .f128 0x7FFEFFFFFFFFFFFFFFFFFFFFFFFFFFFF#128 ≠ 0 := by
  refine ⟨⟨?_, ?_⟩, ⟨?_, ?_⟩, ⟨?_, ?_⟩, ?_, ?_⟩ <;> decide +kernel

theorem witness_NormalizeIsInjective :
    FiniteNonzero .f256 1#256 ∧ normalize .f256 1#256 = normalize .f256 1#256 :=
  ⟨⟨by decide +kernel, by decide +kernel⟩, rfl⟩

/-- Each clause of `RneIsNearestEven` at its boundary. -/
theorem witness_RneIsNearestEven : 1 ≤ 1 ∧ (1 : Nat) ≤ 2 ^ (1 - 1) ∧ (1 : Nat) ≤ 2 := by decide
/-- Rounding 9 and 15 by two bits and one bit: without and with a carry. -/
theorem witness_RneCarriesOnlyFromAllOnes : 1 ≤ 2 ∧ 2 < bitlen 9 ∧ 1 ≤ 1 ∧ 1 < bitlen 15 := by decide
theorem witness_ShrcompressIsSticky : (0b1011 : Nat) ≠ 0 ∧ bitlen 0b1011 ≤ 4 := by decide

/-- 5/2 is held as 3, and 4 as itself. -/
theorem sticky_examples : StickyOf (5 / 2) 3 ∧ StickyOf 4 4 := by
  refine ⟨.inr ⟨2, ?_, ?_, by decide⟩, .inl ?_⟩ <;> norm_num

theorem witness_StickyBitRoundsTheExactValue : (0 : ℝ) < 5 / 2 ∧ StickyOf (5 / 2) 3 ∧ 2 ≤ 2 :=
  ⟨by norm_num, sticky_examples.1, le_rfl⟩

/-- An exact magnitude, and one with a sticky bit at two dropped bits. -/
theorem witness_RoundPackRoundsCorrectly :
    ((0 : ℝ) < 4 ∧ StickyOf 4 4 ∧ (((4 : Nat) : ℝ) = 4 ∨ 2 ≤ dropCount .f128 4 0)) ∧
      ((0 : ℝ) < 5 / 2 ∧ StickyOf (5 / 2) 3 ∧
        (((3 : Nat) : ℝ) = 5 / 2 ∨ 2 ≤ dropCount .f128 3 (-16496))) :=
  ⟨⟨by norm_num, sticky_examples.2, .inl (by norm_num)⟩,
    ⟨by norm_num, sticky_examples.1, .inr (by decide +kernel)⟩⟩

theorem witness_RoundPackKeepsTheSign : 0 < 1 := by decide
/-- At the threshold the result is the infinity (vector RP4). -/
theorem witness_OverflowThresholdIsExact : 0 < 2 ^ 114 - 1 ∧
    roundPack .f128 false (2 ^ 114 - 1) (16383 - 112 - 1) = infOf .f128 false := by decide +kernel

theorem witness_AddSubRoundCorrectly :
    (isFinite .f128 1#128 = true ∧ isFinite .f128 0#128 = true ∧ (isZero .f128 1#128 && isZero .f128 0#128) = false) ∧
    (isFinite .f256 1#256 = true ∧ isFinite .f256 0#256 = true ∧ (isZero .f256 1#256 && isZero .f256 0#256) = false) := by
  decide +kernel

/-- Every clause of the ADD table has operands: a NaN, infinities of unlike and like sign, an infinity and a finite
value, two zeros, a zero and a finite value, a value and its negation. -/
theorem witness_AddSubFollowTheTable :
    isNaN .f128 0xFFFF0000000000000000000000000001#128 = true ∧
    (isInf .f128 (infOf .f128 true) = true ∧ isInf .f128 (infOf .f128 false) = true ∧
      sign .f128 (infOf .f128 true) ≠ sign .f128 (infOf .f128 false)) ∧
    isFinite .f128 0#128 = true ∧ isZero .f128 0#128 = true ∧ FiniteNonzero .f128 1#128 ∧
    FiniteNonzero .f256 1#256 ∧
    0x80000000000000000000000000000001#128 = 1#128 ^^^ signMask .f128 := by
  refine ⟨?_, ⟨?_, ?_, ?_⟩, ?_, ?_, ⟨?_, ?_⟩, ⟨?_, ?_⟩, ?_⟩ <;> decide +kernel

/-- The clauses of the MUL and QUO tables have operands: a NaN, an infinity, a zero, a finite non-zero value. -/
theorem witness_MulFollowsTheTable :
    isNaN .f256 (qnan .f256) = true ∧ isInf .f256 (infOf .f256 true) = true ∧ isZero .f256 (zeroOf .f256 true) = true ∧
      isFinite .f256 (zeroOf .f256 true) = true ∧ FiniteNonzero .f256 1#256 := by
  refine ⟨?_, ?_, ?_, ?_, ⟨?_, ?_⟩⟩ <;> decide +kernel

theorem witness_QuoFollowsTheTable :
    isNaN .f128 (qnan .f128) = true ∧ isInf .f128 (infOf .f128 true) = true ∧ isZero .f128 (zeroOf .f128 true) = true ∧
      isFinite .f128 (zeroOf .f128 true) = true ∧ FiniteNonzero .f128 1#128 := by
  refine ⟨?_, ?_, ?_, ?_, ⟨?_, ?_⟩⟩ <;> decide +kernel

/-- The clauses of the SQRT corner cases have operands. -/
theorem witness_SqrtFollowsTheCornerCases :
    isNaN .f128 (qnan .f128) = true ∧ isZero .f128 (zeroOf .f128 true) = true ∧
      (sign .f128 (infOf .f128 true) = true ∧ isZero .f128 (infOf .f128 true) = false) ∧
      (isInf .f128 (infOf .f128 false) = true ∧ sign .f128 (infOf .f128 false) = false) := by decide +kernel

/-- The clauses of the FMA table have operands, the product that underflows to zero and the one that does not among
them (vectors F10, F14). -/
theorem witness_FmaFollowsTheTable :
    isNaN .f128 (qnan .f128) = true ∧ (isZero .f128 0#128 = true ∧ isInf .f128 (infOf .f128 false) = true) ∧
      (isInf .f128 (infOf .f128 false) = true ∧ isZero .f128 1#128 = false ∧ isNaN .f128 1#128 = false) ∧
      isFinite .f128 1#128 = true ∧ FiniteNonzero .f128 1#128 ∧
      (isSpecial .f128 0#128 = true ∧ isInf .f128 0#128 = false) ∧
      isZero .f128 (mul .f128 1#128 1#128) = true ∧
      isZero .f128 (mul .f128 0x3FFF0000000000000000000000000000#128 1#128) = false := by
  refine ⟨?_, ?_, ?_, ?_, ⟨?_, ?_⟩, ?_, ?_, ?_⟩ <;> decide +kernel

/-- A value and its negation: their sum is zero, far below the smallest normal. -/
theorem witness_SmallSumsAreExact :
    isFinite .f128 1#128 = true ∧ isFinite .f128 (1#128 ^^^ signMask .f128) = true ∧
      |val .f128 1#128 + val .f128 (1#128 ^^^ signMask .f128)| < 2 ^ Fmt.EMIN .f128 := by
  refine ⟨by decide +kernel, by decide +kernel, ?_⟩
  have hb : bexp .f128 1#128 = 0 := by decide +kernel
  have hs : sign .f128 1#128 = false := by decide +kernel
  have : val .f128 1#128 + val .f128 (1#128 ^^^ signMask .f128) = 0 := by
    have h1 : bexp .f128 (1#128 ^^^ signMask .f128) = 0 := by decide +kernel
    have h2 : sign .f128 (1#128 ^^^ signMask .f128) = true := by decide +kernel
    have h3 : frac .f128 (1#128 ^^^ signMask .f128) = frac .f128 1#128 := by decide +kernel
    simp only [val, hb, h1, hs, h2, h3, signFactor, if_true, Bool.false_eq_true, if_false]
    ring
  rw [this, abs_zero]
  positivity

/-- `x - x` of a finite value, and a difference that is neither a NaN nor a zero. -/
theorem witness_SubtractionIsAntisymmetric :
    isFinite .f128 1#128 = true ∧ isNaN .f128 (sub .f128 1#128 0#128) = false ∧
      isZero .f128 (sub .f128 1#128 0#128) = false := by decide +kernel

theorem witness_MulRoundsCorrectly :
    (isFinite .f128 1#128 = true ∧ isFinite .f128 0#128 = true) ∧
      (isFinite .f256 1#256 = true ∧ isFinite .f256 0#256 = true) := by decide +kernel

theorem witness_QuoRoundsCorrectly :
    (isFinite .f128 0#128 = true ∧ FiniteNonzero .f128 1#128) ∧
      (isFinite .f256 0#256 = true ∧ FiniteNonzero .f256 1#256) := by
  refine ⟨⟨?_, ⟨?_, ?_⟩⟩, ⟨?_, ⟨?_, ?_⟩⟩⟩ <;> decide +kernel

theorem witness_OneIsNeutral : isFinite .f256 1#256 = true ∧ isZero .f256 1#256 = false := by decide +kernel
theorem witness_SqrtRemIsTheIntegerRoot : 15 < 4 ^ 2 ∧ 0 < 4 ^ 0 := by decide

theorem witness_SqrtRoundsCorrectly :
    (FiniteNonzero .f128 1#128 ∧ sign .f128 1#128 = false) ∧ (FiniteNonzero .f256 1#256 ∧ sign .f256 1#256 = false) := by
  refine ⟨⟨⟨?_, ?_⟩, ?_⟩, ⟨⟨?_, ?_⟩, ?_⟩⟩ <;> decide +kernel

theorem witness_SqrtResultIsNormal : FiniteNonzero .f128 1#128 ∧ sign .f128 1#128 = false :=
  witness_SqrtRoundsCorrectly.1

theorem witness_FmaRoundsOnce : FiniteNonzero .f128 1#128 ∧ FiniteNonzero .f256 1#256 :=
  ⟨witness_SqrtRoundsCorrectly.1.1, witness_SqrtRoundsCorrectly.2.1⟩

/-- `0 * Inf` is a NaN result; `0xFF…01` is a NaN operand. -/
theorem witness_OnlyTheCanonicalNaNIsReturned :
    isNaN .f128 (mul .f128 0#128 (infOf .f128 true)) = true ∧
      isNaN .f128 0xFFFF0000000000000000000000000001#128 = true := by decide +kernel

theorem witness_GuardBitsAreNotObservable : 3 ≤ 3 := by decide

end Sys2Proof.Tests
end

/-! PROOFS. The number of guard bits is not observable (spec/00_scope.md R5, spec/41_rounding.md R53,
spec/42_addsub.md R62 (f)).

The idea: a sum aligned with a sticky bit lies on the same side of every even number as the exact sum does, whatever
the number of guard bits. Rounding asks of a magnitude only on which side of the grid points and of the midpoints
between them it lies, and these are even as soon as two bits or more are dropped. -/

namespace Sys2Proof.Machine

/-! ### Lying on the same sides of a grid -/

/-- `z / 2^k` and `w` lie on the same side of every multiple of `2^t`. With `t = 1` this is what a sticky bit keeps
(R53); with `t = 0` it says that `w` is `z / 2^k` exactly. -/
def SameSides (t k : Nat) (z w : Int) : Prop :=
  ∀ a : Int, 2 ^ t ∣ a → (w < a ↔ z < a * 2 ^ k) ∧ (a < w ↔ a * 2 ^ k < z)

namespace SameSides
variable {t k : Nat} {z w : Int}

theorem lt_iff (h : SameSides t k z w) {a : Int} (ha : 2 ^ t ∣ a) : w < a ↔ z < a * 2 ^ k := (h a ha).1

theorem gt_iff (h : SameSides t k z w) {a : Int} (ha : 2 ^ t ∣ a) : a < w ↔ a * 2 ^ k < z := (h a ha).2

theorem neg_iff (h : SameSides t k z w) : w < 0 ↔ z < 0 := by simpa using h.lt_iff (dvd_zero _)

theorem pos_iff (h : SameSides t k z w) : 0 < w ↔ 0 < z := by simpa using h.gt_iff (dvd_zero _)

theorem eq_zero_iff (h : SameSides t k z w) : w = 0 ↔ z = 0 := by
  have := h.neg_iff; have := h.pos_iff; omega

theorem neg (h : SameSides t k z w) : SameSides t k (-z) (-w) := by
  intro a ha
  obtain ⟨hlt, hgt⟩ := h (-a) (ha.neg_right)
  rw [Int.neg_mul] at hlt hgt
  constructor <;> omega

theorem natAbs (h : SameSides t k z w) : SameSides t k z.natAbs w.natAbs := by
  have hneg := h.neg_iff
  by_cases hz : z < 0
  · rw [Int.ofNat_natAbs_of_nonpos hz.le, Int.ofNat_natAbs_of_nonpos (hneg.mpr hz).le]
    exact h.neg
  · rw [Int.natAbs_of_nonneg (by omega), Int.natAbs_of_nonneg (by omega)]
    exact h

theorem signed {m n : Nat} (s : Bool) (h : SameSides t k m n) :
    SameSides t k (Machine.signed s m) (Machine.signed s n) := by
  cases s
  · exact h
  · exact h.neg

/-- Both sides move alike by a point of the grid. -/
theorem add_left {e : Int} (h : SameSides t k z w) (he : 2 ^ t ∣ e) : SameSides t k (e * 2 ^ k + z) (e + w) := by
  intro a ha
  obtain ⟨hlt, hgt⟩ := h (a - e) (Int.dvd_sub ha he)
  rw [Int.sub_mul] at hlt hgt
  constructor <;> omega

/-- Two numbers that stand for the same one at different scales stand for each other. -/
theorem of_common {d : Nat} {x : Int} (hz : SameSides t d (x * 2 ^ k) z) (hw : SameSides t d x w) :
    SameSides t k z w := by
  intro a ha
  have hk : (0 : Int) < 2 ^ k := by positivity
  have ha' : (2 : Int) ^ t ∣ a * 2 ^ k := Dvd.dvd.mul_right ha _
  have hswap : a * 2 ^ k * 2 ^ d = a * 2 ^ d * 2 ^ k := by ring
  rw [hw.lt_iff ha, hw.gt_iff ha, hz.lt_iff ha', hz.gt_iff ha', hswap, Int.mul_lt_mul_right hk, Int.mul_lt_mul_right hk]
  exact ⟨Iff.rfl, Iff.rfl⟩

/-- An exact multiple lies on the same sides of everything. -/
theorem mul_two_pow (t k : Nat) (w : Int) : SameSides t k (w * 2 ^ k) w := by
  intro a _
  have hk : (0 : Int) < 2 ^ k := by positivity
  rw [Int.mul_lt_mul_right hk, Int.mul_lt_mul_right hk]
  exact ⟨Iff.rfl, Iff.rfl⟩

end SameSides

/-- The sticky shift keeps the side of every even number (R52, R53). -/
theorem sameSides_shrcompress (v d : Nat) : SameSides 1 d v (shrcompress v d) := by
  rw [shrcompress_eq, or_one_eq]
  have hv : (v : Int) = (v / 2 ^ d : Nat) * 2 ^ d + (v % 2 ^ d : Nat) := by
    exact_mod_cast (Nat.div_add_mod' v (2 ^ d)).symm
  have hr : (v % 2 ^ d : Nat) < (2 : Int) ^ d := by exact_mod_cast Nat.mod_lt v (Nat.two_pow_pos d)
  generalize v % 2 ^ d = r at hv hr ⊢
  generalize v / 2 ^ d = n at hv ⊢
  by_cases h0 : r = 0
  · rw [if_pos h0, hv, h0]
    simpa using SameSides.mul_two_pow 1 d n
  rw [if_neg h0]
  rintro a ⟨c, rfl⟩
  have below : (n : Int) * 2 ^ d + r < (2 ^ 1 * c) * 2 ^ d ↔ (n : Int) < 2 ^ 1 * c := by
    constructor <;> intro h <;> nlinarith
  have above : (2 ^ 1 * c) * 2 ^ d < (n : Int) * 2 ^ d + r ↔ 2 ^ 1 * c ≤ (n : Int) := by
    constructor <;> intro h
    · by_contra hc
      nlinarith
    · nlinarith [(by omega : (0 : Int) < r)]
  rw [hv, below, above]
  split_ifs <;> push_cast <;> constructor <;> omega

/-- An even bound on the exact quotient also bounds the sticky one (R53). -/
theorem shrcompress_le {v c d : Nat} (h : v ≤ 2 * c * 2 ^ d) : shrcompress v d ≤ 2 * c := by
  have hside := (sameSides_shrcompress v d).gt_iff (a := 2 * c) (Dvd.intro _ rfl)
  have hnot : ¬ ((2 * c : Int) * 2 ^ d < v) := by push_cast [not_lt]; exact_mod_cast h
  omega

/-- A strict even bound on the exact quotient also bounds the sticky one strictly (R53). -/
theorem shrcompress_lt {v c d : Nat} (h : v < 2 * c * 2 ^ d) : shrcompress v d < 2 * c := by
  have hside := (sameSides_shrcompress v d).lt_iff (a := 2 * c) (Dvd.intro _ rfl)
  exact_mod_cast hside.mpr (by exact_mod_cast h)

/-! ### Rounding sees only the sides -/

theorem bitlen_mono {m n : Nat} (h : m ≤ n) : bitlen m ≤ bitlen n :=
  bitlen_le_iff.mpr (h.trans_lt (lt_two_pow_bitlen n))

/-- RoundPack drops at least the bits beyond the precision (R54). -/
theorem le_dropCount (F : Fmt) (m : Nat) (q : Int) : (bitlen m : Int) - F.P ≤ dropCount F m q := le_max_left _ _

section rounding
variable {t k m w : Nat}

/-- Numbers on the same sides of a grid no coarser than `w` differ in bit length by the scale alone (R7). -/
theorem bitlen_of_sameSides (h : SameSides t k m w) (ht : t < bitlen w) : bitlen m = bitlen w + k := by
  obtain ⟨n, hn⟩ : ∃ n, bitlen w = n + 1 := ⟨bitlen w - 1, by omega⟩
  obtain ⟨hlo, hhi⟩ := bitlen_eq_iff.mp hn
  have lo := h.lt_iff (pow_dvd_pow 2 (by omega : t ≤ n))
  have hi := h.lt_iff (pow_dvd_pow 2 (by omega : t ≤ n + 1))
  rw [← pow_add] at lo hi
  norm_cast at lo hi
  rw [hn, show n + 1 + k = n + k + 1 by omega, bitlen_eq_iff, show n + k + 1 = n + 1 + k by omega]
  omega

/-- RNE asks only on which side of the multiples of half a unit its argument lies (R50). -/
theorem rne_of_sameSides {j : Nat} (h : SameSides t k m w) (hj : t ≤ j) : rne m (j + 1 + k) = rne w (j + 1) := by
  obtain ⟨n, low, hlow, rfl⟩ : ∃ n low, low < 2 ^ (j + 1) ∧ w = n * 2 ^ (j + 1) + low :=
    ⟨w / 2 ^ (j + 1), w % 2 ^ (j + 1), Nat.mod_lt _ (Nat.two_pow_pos _), (Nat.div_add_mod' _ _).symm⟩
  have side : ∀ i : Nat, (n * 2 ^ (j + 1) + low < i * 2 ^ j ↔ m < i * 2 ^ (j + k)) ∧
      (i * 2 ^ j < n * 2 ^ (j + 1) + low ↔ i * 2 ^ (j + k) < m) := by
    intro i
    have hs := h (i * 2 ^ j) (Dvd.dvd.mul_left (pow_dvd_pow 2 hj) _)
    rw [mul_assoc, ← pow_add] at hs
    exact_mod_cast hs
  have start := (side (2 * n)).1
  have mid := side (2 * n + 1)
  have stop := (side (2 * n + 2)).1
  have hpow : 2 ^ (j + 1) = 2 * 2 ^ j := by rw [pow_succ]; omega
  have hpowk : 2 ^ (j + 1 + k) = 2 * 2 ^ (j + k) := by rw [show j + 1 + k = j + k + 1 by omega, pow_succ]; omega
  have e1 : n * 2 ^ (j + 1) = 2 * n * 2 ^ j := by rw [hpow]; ring
  have e2 : n * 2 ^ (j + 1 + k) = 2 * n * 2 ^ (j + k) := by rw [hpowk]; ring
  simp only [add_mul, one_mul] at mid stop
  obtain ⟨low', rfl⟩ : ∃ low', m = n * 2 ^ (j + 1 + k) + low' := Nat.exists_eq_add_of_le (by omega)
  rw [rne_cases n low' _ (by omega) (by omega), rne_cases n low _ (by omega) hlow, Nat.add_sub_cancel,
    show j + 1 + k - 1 = j + k by omega]
  have below : low' < 2 ^ (j + k) ↔ low < 2 ^ j := by omega
  have above : 2 ^ (j + k) < low' ↔ 2 ^ j < low := by omega
  simp only [below, above]

variable {F : Fmt} {q : Int}

/-- RoundPack reads its magnitude through the rounded magnitude and the leading exponent (R54). -/
theorem roundPack_congr {s : Bool} {q' : Int} (hr : roundedMagnitude F m q = roundedMagnitude F w q')
    (he : leadExponent m q = leadExponent w q') : roundPack F s m q = roundPack F s w q' := by
  simp only [roundPack, hr, he]

theorem leadExponent_of_bitlen (h : bitlen m = bitlen w + k) : leadExponent m q = leadExponent w (q + k) := by
  simp only [leadExponent, h]; push_cast; omega

theorem dropCount_of_bitlen (h : bitlen m = bitlen w + k) : dropCount F m q = dropCount F w (q + k) + k := by
  simp only [dropCount, h]; push_cast; omega

theorem roundedMagnitude_of_pos (h : 0 < dropCount F m q) :
    roundedMagnitude F m q = rne m (dropCount F m q).toNat := by simp [roundedMagnitude, Int.not_le.mpr h]

theorem roundedMagnitude_of_nonpos (h : dropCount F m q ≤ 0) :
    roundedMagnitude F m q = m * 2 ^ (-dropCount F m q).toNat := by simp [roundedMagnitude, h, Nat.shiftLeft_eq]

/-- The rounded magnitude is the same when more than `t` bits are dropped (R53, R54). -/
theorem roundedMagnitude_of_sameSides (h : SameSides t k m w) (ht : t < bitlen w)
    (hd : (t : Int) < dropCount F w (q + k)) : roundedMagnitude F m q = roundedMagnitude F w (q + k) := by
  have hdm : dropCount F m q = dropCount F w (q + k) + k := dropCount_of_bitlen (bitlen_of_sameSides h ht)
  obtain ⟨j, hj⟩ : ∃ j : Nat, dropCount F w (q + k) = (j + 1 : Nat) :=
    ⟨(dropCount F w (q + k)).toNat - 1, by omega⟩
  rw [roundedMagnitude_of_pos (by omega), roundedMagnitude_of_pos (by omega), hdm, hj]
  exact rne_of_sameSides h (by omega)

/-- Rounding cannot tell two magnitudes on the same sides of the grid apart (R53). -/
theorem roundPack_of_sameSides (s : Bool) (h : SameSides t k m w) (ht : t < bitlen w)
    (hd : (t : Int) < dropCount F w (q + k)) : roundPack F s m q = roundPack F s w (q + k) :=
  roundPack_congr (roundedMagnitude_of_sameSides h ht hd) (leadExponent_of_bitlen (bitlen_of_sameSides h ht))

/-- RoundPack rounds the number `m * 2^q`, not its representation: trailing zero bits of the magnitude are not seen
(R54). -/
theorem roundPack_mul_two_pow (s : Bool) (hw : w ≠ 0) (k : Nat) :
    roundPack F s (w * 2 ^ k) q = roundPack F s w (q + k) := by
  have hsides : SameSides 0 k (w * 2 ^ k : Nat) w := by exact_mod_cast SameSides.mul_two_pow 0 k w
  have hpos : 0 < bitlen w := by rw [bitlen_of_ne_zero hw]; omega
  have hlen := bitlen_of_sameSides hsides hpos
  by_cases hd : 0 < dropCount F w (q + k)
  · exact roundPack_of_sameSides s hsides hpos hd
  refine roundPack_congr ?_ (leadExponent_of_bitlen hlen)
  have hdm := dropCount_of_bitlen (F := F) (q := q) hlen
  rw [roundedMagnitude_of_nonpos (by omega : dropCount F w (q + k) ≤ 0)]
  by_cases hm : dropCount F (w * 2 ^ k) q ≤ 0
  · rw [roundedMagnitude_of_nonpos hm, mul_assoc, ← pow_add]
    congr 2; omega
  · rw [roundedMagnitude_of_pos (by omega)]
    generalize hj : (dropCount F (w * 2 ^ k) q).toNat = j
    obtain ⟨i, rfl⟩ : ∃ i, k = i + j := ⟨k - j, by omega⟩
    have exact_unit := rne_cases (w * 2 ^ i) 0 j (by omega) (Nat.two_pow_pos _)
    rw [if_pos (Nat.two_pow_pos _), Nat.add_zero, mul_assoc, ← pow_add] at exact_unit
    rw [exact_unit]
    congr 2; omega

end rounding

/-! ### The sum with guard bits, for ADD and for FMA -/

/-- The accumulator of R60 and of R100 steps (5) to (8): the bigger magnitude `b` over `g` guard bits, and the smaller
one `s` aligned `d` places down with sticky. -/
def guardedSum (g : Nat) (bs : Bool) (b : Nat) (ss : Bool) (s d : Nat) : Int :=
  signed bs (b <<< g) + signed ss (shrcompress (s <<< g) d)

/-- The last stages of R60: a zero sum is `+0`, any other one is rounded with its own sign. -/
def roundSum (F : Fmt) (acc : Int) (q : Int) : Pattern F :=
  if acc = 0 then posZero F else roundPack F (decide (acc < 0)) acc.natAbs q

theorem addTriples_eq_roundSum (F : Fmt) (g : Nat) (x y : Triple) :
    addTriples F g x y =
      roundSum F (guardedSum g (orderByExp x y).1.sign (orderByExp x y).1.frac (orderByExp x y).2.sign
        (orderByExp x y).2.frac ((orderByExp x y).1.exp - (orderByExp x y).2.exp).toNat)
        ((orderByExp x y).1.exp - F.FW - g) := rfl

theorem roundSum_signed (F : Fmt) (s : Bool) {m : Nat} (hm : 0 < m) (q : Int) :
    roundSum F (signed s m) q = roundPack F s m q := by
  have hnonneg : ¬ (m : Int) < 0 := by omega
  cases s <;> simp [roundSum, signed, hm.ne', hm, hnonneg]

theorem signed_shiftLeft (s : Bool) (m g : Nat) : signed s (m <<< g) = signed s m * 2 ^ g := by
  cases s <;> simp [signed, Nat.shiftLeft_eq]

theorem signed_add_same (s : Bool) (m n : Nat) : signed s m + signed s n = signed s (m + n) := by
  cases s <;> simp [signed]; omega

theorem signed_add_opposite {s r : Bool} (h : s ≠ r) {m n : Nat} (hn : n ≤ m) :
    signed s m + signed r n = signed s (m - n) := by
  cases s <;> cases r <;> simp_all [signed] <;> omega

section guard
variable {g : Nat} {bs ss : Bool} {b s d : Nat}

/-- With at least one guard bit the accumulator is on the same side of every even number as the exact sum. -/
theorem sameSides_guardedSum (hg : 1 ≤ g) :
    SameSides 1 d ((signed bs b * 2 ^ d + signed ss s) * 2 ^ g) (guardedSum g bs b ss s d) := by
  have hsmall : SameSides 1 d (signed ss (s <<< g)) (signed ss (shrcompress (s <<< g) d)) :=
    (sameSides_shrcompress (s <<< g) d).signed ss
  have heven : (2 : Int) ^ 1 ∣ signed bs (b <<< g) := by
    rw [signed_shiftLeft]; exact Dvd.dvd.mul_left (pow_dvd_pow 2 hg) _
  have hexact : (signed bs b * 2 ^ d + signed ss s) * 2 ^ g = signed bs (b <<< g) * 2 ^ d + signed ss (s <<< g) := by
    rw [signed_shiftLeft, signed_shiftLeft]; ring
  rw [hexact]
  exact hsmall.add_left heven

/-- More guard bits only refine the accumulator: the coarser one still knows the side of every even number. -/
theorem sameSides_guardedSum_more (hg : 1 ≤ g) (k : Nat) :
    SameSides 1 k (guardedSum (g + k) bs b ss s d) (guardedSum g bs b ss s d) := by
  have hfine := sameSides_guardedSum (bs := bs) (ss := ss) (b := b) (s := s) (d := d) (by omega : 1 ≤ g + k)
  rw [pow_add, ← mul_assoc] at hfine
  exact hfine.of_common (sameSides_guardedSum hg)

/-- The aligned smaller magnitude, with no bit lost while the guard bits are enough (R62). -/
theorem shrcompress_shiftLeft {m : Nat} (hd : d ≤ g) : shrcompress (m <<< g) d = m <<< (g - d) := by
  have hm : m <<< g = 2 ^ d * m <<< (g - d) := by
    rw [Nat.shiftLeft_eq, Nat.shiftLeft_eq, mul_left_comm, ← pow_add, Nat.add_sub_cancel' hd]
  rw [hm, shrcompress_eq, if_pos (Nat.mul_mod_right _ _), Nat.mul_div_cancel_left _ (Nat.two_pow_pos d)]

/-- A distance within the guard bits is aligned exactly: more of them only append zeros. -/
theorem guardedSum_of_le (hd : d ≤ g) (k : Nat) :
    guardedSum (g + k) bs b ss s d = guardedSum g bs b ss s d * 2 ^ k := by
  unfold guardedSum
  rw [shrcompress_shiftLeft hd, shrcompress_shiftLeft (by omega), Nat.sub_add_comm hd]
  simp only [signed_shiftLeft, pow_add]
  ring

/-- Beyond the three guard bits at most one leading bit cancels: the sum keeps two bits below the precision (R53). -/
theorem four_mul_le_guardedSum (hs : s < 2 * b) (hd : 4 ≤ d) : 4 * b ≤ (guardedSum 3 bs b ss s d).natAbs := by
  have hpow : 2 ^ 4 ≤ 2 ^ d := Nat.pow_le_pow_right (by norm_num) hd
  have hsmall : shrcompress (s <<< 3) d ≤ 2 * (2 * b) := by
    apply shrcompress_le
    rw [Nat.shiftLeft_eq]
    nlinarith
  have hbig : b <<< 3 = 8 * b := by rw [Nat.shiftLeft_eq]; omega
  unfold guardedSum
  cases bs <;> cases ss <;> simp only [signed, hbig, if_true, if_false, Bool.false_eq_true] <;> omega

/-- The rounded sum does not depend on the guard bits beyond three, when the bigger magnitude has all the precision's
bits and the smaller one is less than twice it (R53, R62 (f)). -/
theorem roundSum_guardedSum {F : Fmt} (hb : F.P ≤ bitlen b) (hs : s < 2 * b) (hg : 3 ≤ g) (q : Int) :
    roundSum F (guardedSum g bs b ss s d) (q - g) = roundSum F (guardedSum 3 bs b ss s d) (q - 3) := by
  obtain ⟨k, rfl⟩ := Nat.exists_eq_add_of_le hg
  have hscale : q - 3 = q - (3 + k : Nat) + k := by push_cast; ring
  have hsides := sameSides_guardedSum_more (bs := bs) (ss := ss) (b := b) (s := s) (d := d) (by norm_num : 1 ≤ 3) k
  unfold roundSum
  simp only [← hsides.eq_zero_iff, ← hsides.neg_iff]
  split_ifs with hzero
  · rfl
  rw [hscale]
  by_cases hd : d ≤ 3
  · rw [guardedSum_of_le hd, Int.natAbs_mul, Int.natAbs_pow]
    exact roundPack_mul_two_pow _ (by omega) k
  · have hlarge := four_mul_le_guardedSum (bs := bs) (ss := ss) hs (by omega : 4 ≤ d)
    have hlen : F.P + 2 ≤ bitlen (guardedSum 3 bs b ss s d).natAbs := by
      calc F.P + 2 ≤ bitlen b + 2 := by omega
        _ = bitlen (b <<< 2) := (bitlen_shiftLeft (by omega) 2).symm
        _ ≤ _ := bitlen_mono (by rw [Nat.shiftLeft_eq]; omega)
    refine roundPack_of_sameSides _ hsides.natAbs (by omega) ?_
    have hdrop := le_dropCount F (guardedSum 3 bs b ss s d).natAbs (q - (3 + k : Nat) + k)
    omega

end guard

/-! ### ADD -/

/-- Magnitudes of one bit length are less than a factor of two apart. -/
theorem lt_two_mul_of_bitlen_eq {m n : Nat} (h : bitlen m = bitlen n) (hn : n ≠ 0) : m < 2 * n := by
  have hm := lt_two_pow_bitlen m
  have hlow := two_pow_bitlen_le hn
  have hpos : bitlen n = bitlen n - 1 + 1 := by rw [bitlen_of_ne_zero hn]; omega
  rw [h, hpos, pow_succ] at hm
  omega

theorem ne_zero_of_bitlen {m n : Nat} (h : bitlen m = n) (hn : 0 < n) : m ≠ 0 := by
  rintro rfl
  rw [bitlen_zero] at h
  omega

/-- The sum of two normalized triples does not depend on the guard bits beyond three (R60, R62 (f)). -/
theorem addTriples_guard (F : Fmt) {g : Nat} (hg : 3 ≤ g) {x y : Triple} (hx : bitlen x.frac = F.P)
    (hy : bitlen y.frac = F.P) : addTriples F g x y = addTriples F Config.guardBits x y := by
  have hlens : bitlen (orderByExp x y).1.frac = F.P ∧ bitlen (orderByExp x y).2.frac = F.P := by
    rcases orderByExp_cases x y with h | h <;> simp [h, hx, hy]
  obtain ⟨hbig, hsmall⟩ := hlens
  rw [addTriples_eq_roundSum, addTriples_eq_roundSum]
  exact roundSum_guardedSum hbig.ge
    (lt_two_mul_of_bitlen_eq (hsmall.trans hbig.symm) (ne_zero_of_bitlen hbig (Nat.succ_pos _))) hg _

theorem normalize_bitlen {F : Fmt} {x : Pattern F} (h : ¬ isZero F x = true) : bitlen (normalize F x).frac = F.P :=
  normalize_frac_bitlen fun hfields => h (isZero_iff.mpr hfields)

/-- ADD with any number of guard bits from three up (R5, R60). -/
theorem addWith_guard (F : Fmt) {g : Nat} (hg : 3 ≤ g) (x y : Pattern F) : addWith F g x y = add F x y := by
  unfold add addWith
  split_ifs with _ _ _ _ _ hzx hzy <;> try rfl
  exact addTriples_guard F hg (normalize_bitlen hzx) (normalize_bitlen hzy)

/-! ### FMA -/

/-- Step (2) of R100 gives exactly `2P` bits. -/
theorem bitlen_productTerm (F : Fmt) {x y : Triple} (hx : bitlen x.frac = F.P) (hy : bitlen y.frac = F.P) :
    bitlen (productTerm F x y).mag = 2 * F.P := by
  obtain ⟨hx1, hx2⟩ := bitlen_eq_iff.mp hx
  obtain ⟨hy1, hy2⟩ := bitlen_eq_iff.mp hy
  have hlow : 2 ^ (F.FW + F.FW) ≤ x.frac * y.frac := by rw [pow_add]; exact Nat.mul_le_mul hx1 hy1
  have hhigh : x.frac * y.frac < 2 ^ (2 * F.P) := by
    rw [two_mul, pow_add]; exact Nat.mul_lt_mul'' hx2 hy2
  have hle := bitlen_le_iff.mpr hhigh
  have hge : ¬ bitlen (x.frac * y.frac) ≤ F.FW + F.FW := by rw [bitlen_le_iff]; omega
  have hne : x.frac * y.frac ≠ 0 := by have := Nat.two_pow_pos (F.FW + F.FW); omega
  unfold productTerm
  simp only [Fmt.P] at *
  split_ifs with h
  · simp only [bitlen_shiftLeft hne]; omega
  · simp only; omega

/-- Step (3) of R100 gives exactly `2P` bits. -/
theorem bitlen_addendTerm (F : Fmt) {z : Triple} (hz : bitlen z.frac = F.P) :
    bitlen (addendTerm F z).mag = 2 * F.P := by
  simp only [addendTerm, bitlen_shiftLeft (ne_zero_of_bitlen hz (Nat.succ_pos _)), hz]
  omega

/-- Steps (5) to (9) of R100 are the guarded sum and one rounding: the difference of the terms is zero only when they
are equal, and has the sign of the bigger one otherwise. -/
theorem fuseTerms_eq_roundSum (F : Fmt) {g : Nat} (hg : 1 ≤ g) {big small : Term} (hscale : small.scale ≤ big.scale)
    (hmag : small.scale = big.scale → small.mag ≤ big.mag) (hsize : small.mag < 2 * big.mag) :
    fuseTerms F g big small =
      roundSum F (guardedSum g big.sign big.mag small.sign small.mag (big.scale - small.scale).toNat)
        (big.scale - g) := by
  have hpos : 0 < big.mag <<< g := by
    rw [Nat.shiftLeft_eq]; exact Nat.mul_pos (by omega) (Nat.two_pow_pos g)
  unfold fuseTerms guardedSum
  by_cases hsign : big.sign = small.sign
  · simp only [hsign, bne_self_eq_false, Bool.false_and, Bool.false_eq_true, if_false, beq_self_eq_true, if_true]
    rw [signed_add_same, roundSum_signed F _ (by omega)]
  by_cases hequal : big.scale = small.scale ∧ big.mag = small.mag
  · obtain ⟨hsc, hm⟩ := hequal
    rw [hsc, hm, Int.sub_self, Int.toNat_zero, shrcompress_zero, signed_add_opposite hsign le_rfl, Nat.sub_self]
    simp [hsign, roundSum, signed]
  · have hless : small.mag < big.mag * 2 ^ (big.scale - small.scale).toNat := by
      by_cases hsc : small.scale = big.scale
      · have := hmag hsc
        have hd : (big.scale - small.scale).toNat = 0 := by omega
        rw [hd]
        omega
      · have hd : 2 ^ 1 ≤ 2 ^ (big.scale - small.scale).toNat := Nat.pow_le_pow_right (by norm_num) (by omega)
        nlinarith
    have hbelow : shrcompress (small.mag <<< g) (big.scale - small.scale).toNat < big.mag <<< g := by
      obtain ⟨j, rfl⟩ : ∃ j, g = j + 1 := ⟨g - 1, by omega⟩
      have heven : big.mag <<< (j + 1) = 2 * (big.mag * 2 ^ j) := by rw [Nat.shiftLeft_eq, pow_succ]; ring
      rw [heven]
      apply shrcompress_lt
      rw [← heven, Nat.shiftLeft_eq, Nat.shiftLeft_eq, mul_right_comm]
      exact Nat.mul_lt_mul_of_pos_right hless (Nat.two_pow_pos _)
    rw [signed_add_opposite hsign hbelow.le, roundSum_signed F _ (by omega)]
    simp [hsign, hequal]

/-- The fused sum of three normalized triples does not depend on the guard bits beyond three (R100, R62 (f)). -/
theorem fmaTriples_guard (F : Fmt) {g : Nat} (hg : 3 ≤ g) {x y z : Triple} (hx : bitlen x.frac = F.P)
    (hy : bitlen y.frac = F.P) (hz : bitlen z.frac = F.P) :
    fmaTriples F g x y z = fmaTriples F Config.guardBits x y z := by
  have hproduct := bitlen_productTerm F hx hy
  have haddend := bitlen_addendTerm F hz
  obtain ⟨hscale, hmag⟩ := orderTerms_le (productTerm F x y) (addendTerm F z)
  have hlens : bitlen (orderTerms (productTerm F x y) (addendTerm F z)).1.mag = 2 * F.P ∧
      bitlen (orderTerms (productTerm F x y) (addendTerm F z)).2.mag = 2 * F.P := by
    rcases orderTerms_cases (productTerm F x y) (addendTerm F z) with h | h <;>
      simp only [h, hproduct, haddend, and_self]
  obtain ⟨hbig, hsmall⟩ := hlens
  have hsize := lt_two_mul_of_bitlen_eq (hsmall.trans hbig.symm)
    (ne_zero_of_bitlen hbig (by simp only [Fmt.P]; omega))
  unfold fmaTriples
  rw [fuseTerms_eq_roundSum F (by omega) hscale hmag hsize, fuseTerms_eq_roundSum F (by decide) hscale hmag hsize]
  exact roundSum_guardedSum (by omega) hsize hg _

/-- FMA with any number of guard bits from three up (R5, R100). -/
theorem fmaWith_guard (F : Fmt) {g : Nat} (hg : 3 ≤ g) (x y z : Pattern F) : fmaWith F g x y z = fma F x y z := by
  unfold fma fmaWith
  split_ifs with hspecial _ <;> try rfl
  simp only [isSpecial, Bool.or_eq_true, not_or] at hspecial
  obtain ⟨⟨_, hx⟩, ⟨_, hy⟩, ⟨_, hz⟩⟩ := hspecial
  exact fmaTriples_guard F hg (normalize_bitlen hx) (normalize_bitlen hy) (normalize_bitlen hz)

/-- Settles O56: beyond three guard bits the accumulator only gains bits that the sticky bit already stands for, and
rounding sees no more of them. -/
theorem guardBitsAreNotObservable : Obligations.GuardBitsAreNotObservable :=
  fun F _ x y z hg => ⟨addWith_guard F hg x y, fmaWith_guard F hg x y z⟩

end Sys2Proof.Machine

/-! PROOFS. The queue and its commands (spec/10_state.md R14 to R19).

The idea: an instruction has one response word, `responseOf`. `exec` appends it to the queue, and `Exec(cmd)` of R15,
written over the ports, is the response of the decoded instruction. An edge then moves the queue by the response channel
and by at most one such word, and each claim about an edge is read off these two equations. -/

namespace Sys2Proof.Machine

/-! ### The decoder and the response of a command -/

/-- The response word of an instruction (R15). -/
def responseOf : Instr → Word
  | .add128 a b => responseWord .f128 (add .f128 a b)
  | .sub128 a b => responseWord .f128 (sub .f128 a b)
  | .mul128 a b => responseWord .f128 (mul .f128 a b)
  | .quo128 a b => responseWord .f128 (quo .f128 a b)
  | .sqrt128 a => responseWord .f128 (sqrt .f128 a)
  | .fma128 a b c => responseWord .f128 (fma .f128 a b c)
  | .class128 a => responseWord .f128 (classWord .f128 a)
  | .add256 a b => responseWord .f256 (add .f256 a b)
  | .sub256 a b => responseWord .f256 (sub .f256 a b)
  | .mul256 a b => responseWord .f256 (mul .f256 a b)
  | .quo256 a b => responseWord .f256 (quo .f256 a b)
  | .sqrt256 a => responseWord .f256 (sqrt .f256 a)
  | .fma256 a b c => responseWord .f256 (fma .f256 a b c)
  | .class256 a => responseWord .f256 (classWord .f256 a)

/-- Every arm of `exec` accepts the instruction's response and does nothing else (R15, R16). -/
theorem exec_eq_accept (i : Instr) (s : State) : exec i s = .next (s.accept (responseOf i)) := by
  cases i <;> rfl

/-- R15 and the decoder read the same operand from a port, in either format (R36). -/
theorem portOperand_f128 (p : Word) : portOperand .f128 p = operand128 p :=
  BitVec.setWidth_eq_extractLsb' (by decide)

theorem portOperand_f256 (p : Word) : portOperand .f256 p = p := BitVec.setWidth_eq p

/-- The decoder and R15 agree, word by word of the opcode map, the two reserved words included. -/
theorem commandResponse_eq_decode (c : Command) : commandResponse c = (decode c).map responseOf := by
  obtain ⟨op, a, b, c⟩ := c
  obtain ⟨w, hw, rfl⟩ : ∃ w < 16, op = BitVec.ofNat 4 w := ⟨op.toNat, op.isLt, by simp⟩
  interval_cases w
  all_goals simp [commandResponse, commandFmt, decode, responseIn, responseOf, portOperand_f128, portOperand_f256]

/-- The 128-bit operand of a port is the one encoded over any junk (R36). -/
@[simp] theorem operand128_port128 (x : BitVec 128) (j : Word) : operand128 (port128 x j) = x :=
  BitVec.extractLsb'_append_eq_right

/-- Decoding reads back what was encoded, over any contents of the unused bits (R36, R37). -/
@[simp] theorem decode_encodeOver (i : Instr) (j : Command) : decode (encodeOver j i) = some i := by
  cases i <;> simp [encodeOver, decode]

/-- R15 refuses exactly the operation fields from 7 up. -/
theorem responseIn_eq_none_iff {F : Fmt} {o : Nat} {a b c : Pattern F} : responseIn F o a b c = none ↔ 7 ≤ o := by
  rcases Nat.lt_or_ge o 7 with h | h
  · interval_cases o <;> simp [responseIn]
  · obtain ⟨k, rfl⟩ := Nat.exists_eq_add_of_le' h
    simp [responseIn]

/-- Every response is a result of its format, zero-extended (R15, R21). -/
theorem responseIn_eq_responseWord {F : Fmt} {o : Nat} {a b c : Pattern F} {w : Word}
    (h : responseIn F o a b c = some w) : ∃ r, w = responseWord F r := by
  unfold responseIn at h
  split at h
  case h_8 => cases h
  all_goals exact ⟨_, (Option.some.inj h).symm⟩

/-- R15 refuses exactly the reserved words (R39). -/
theorem commandResponse_eq_none_iff (c : Command) : commandResponse c = none ↔ reservedWord c.op = true := by
  have hlt := (c.op.extractLsb' 0 3).isLt
  simp only [commandResponse, responseIn_eq_none_iff, reservedWord, beq_iff_eq, ← BitVec.toNat_inj,
    BitVec.toNat_ofNat]
  omega

/-- What R15 computes from the ports is the response of the decoded instruction. -/
theorem commandResponse_of_decode {c : Command} {i : Instr} (h : decode c = some i) :
    commandResponse c = some (responseOf i) := by
  simp [commandResponse_eq_decode, h]

/-- The decoder and R15 refuse the same commands (R39). -/
theorem decode_eq_none_iff (c : Command) : decode c = none ↔ commandResponse c = none := by
  simp [commandResponse_eq_decode]

/-- A command that is not reserved selects an instruction (R39). -/
theorem exists_decode {c : Command} (h : reservedWord c.op = false) : ∃ i, decode c = some i := by
  rw [← Option.ne_none_iff_exists', ne_eq, decode_eq_none_iff, commandResponse_eq_none_iff, h]
  decide

/-- A zero-extended F128 result has zeros above bit 127 (R21). -/
theorem responseWord_f128_high (r : Pattern .f128) : (responseWord .f128 r).extractLsb' 128 128 = 0#128 := by
  unfold responseWord
  ext k hk
  simpa using fun _ => BitVec.getLsbD_of_ge r (128 + k) (Nat.le_add_right _ _)

/-- Settles O4: an instruction's response is both what `exec` appends and what R15 computes from the ports. -/
theorem execIsTheSpecifiedResponse : Obligations.ExecIsTheSpecifiedResponse :=
  fun c => ⟨decode_eq_none_iff c, fun i hi =>
    ⟨responseOf i, commandResponse_of_decode hi, exec_eq_accept i⟩⟩

/-- Settles O6: both commands decode to the same instruction, and the response is the instruction's. -/
theorem unusedBitsDoNotMatter : Obligations.UnusedBitsDoNotMatter := by
  intro c j i hi
  rw [commandResponse_of_decode hi, commandResponse_of_decode (decode_encodeOver i j)]

/-- Settles O7: with bit 3 of the command word 0 the format of R15 is F128, and so is the result extended. -/
theorem narrowResponsesAreZeroExtended : Obligations.NarrowResponsesAreZeroExtended := by
  intro c w hop hw
  have hF : commandFmt c.op = .f128 := by rw [commandFmt, hop]; rfl
  rw [commandResponse, hF] at hw
  obtain ⟨r, rfl⟩ := responseIn_eq_responseWord hw
  exact responseWord_f128_high r

/-! ### The handshake outputs -/

/-- Settles O13: an empty queue offers nothing. -/
theorem resetStateIsEmpty : Obligations.ResetStateIsEmpty :=
  ⟨rfl, rfl, fun e => by simp [State.rspValid_running State.reset_phase]⟩

/-- Settles O17: a running unit that is ready has room, and a Deliver is an offer taken. -/
theorem readyOnlyWithRoom : Obligations.ReadyOnlyWithRoom := by
  intro depth s e hp h
  obtain ⟨hrst, -, hlt | ⟨hlen, hd⟩⟩ := State.cmdReady_cases hp h
  · exact ⟨hrst, .inl hlt⟩
  · obtain ⟨hv, hr, -⟩ := State.delivers_cases hp hd
    exact ⟨hrst, .inr ⟨hlen, hv, hr⟩⟩

/-- Settles O18: an offer needs a head, which is then the data; no output looks at `rsp_ready`. -/
theorem offersOnlyTheHead : Obligations.OffersOnlyTheHead := by
  intro s e hp
  refine ⟨fun hv => ?_, fun b => ?_⟩
  · obtain ⟨hrst, w, rest, hq⟩ := State.rspValid_cases hp hv
    exact ⟨hrst, w, by simp [hq], by simp [State.rspData_running hp, hv, hq]⟩
  · simp only [State.rspValid_running hp]

/-- Settles O20: the wishes are the wanted outputs themselves; the rules let them through as they are. -/
theorem everyLegalHandshakeOccurs : Obligations.EveryLegalHandshakeOccurs := by
  intro depth s e ready valid hrst hlegal
  refine ⟨ready, valid, ?_⟩
  cases hp : s.phase with
  | beforeFirstReset => simp [State.rspValid_beforeFirstReset hp, State.cmdReady_beforeFirstReset hp, hrst]
  | running =>
    obtain ⟨hqueued, hheld, hroom⟩ := hlegal hp
    have hvalid : s.rspValid { e with wishReady := ready, wishValid := valid } = valid := by
      rw [State.rspValid_running hp]
      cases valid with
      | true => simp [hrst, hqueued rfl]
      | false => simpa [hrst] using fun hq hoff => Bool.false_ne_true (hheld hoff hq)
    refine ⟨hvalid, ?_⟩
    rw [State.cmdReady_running hp, State.hasRoom, State.delivers, hvalid]
    cases ready with
    | true => simpa [hrst] using hroom rfl
    | false => simp

/-! ### One edge of a running unit -/

section edge
variable {depth : Nat} {e : Edge} {s t : State}

/-- Without reset, an edge of a running unit is the response channel and then the command channel (R16, R17). -/
theorem clockEdge_running (hp : s.phase = .running) (hrst : e.rst = false) :
    clockEdge depth e s = commandChannel (s.cmdReady depth e) e (s.responseChannel e) := by
  simp [clockEdge, hp, hrst]

/-- The response channel, as an equation on the whole state. -/
theorem responseChannel_eq (s : State) (e : Edge) : s.responseChannel e =
    { pending := if s.delivers e then s.pending.tail else s.pending
      offered := s.rspValid e && !e.rspReady
      phase := s.phase
      taken := s.taken ++ (if s.delivers e then s.pending.head?.toList else [])
      inputs := s.inputs } := by
  unfold State.responseChannel State.delivers
  cases s.rspValid e <;> cases e.rspReady <;> simp

/-- The command channel without a reserved word: an Accept appends `Exec(cmd)`, and nothing else changes (R15, R16). -/
theorem commandChannel_eq {ready : Bool} (h : e.cmdValid = true → reservedWord e.cmd.op = false) :
    commandChannel ready e t = .next { t with
      pending := t.pending ++ if e.cmdValid && ready then (commandResponse e.cmd).toList else [] } := by
  unfold commandChannel
  cases hv : e.cmdValid with
  | false => simp
  | true =>
    obtain ⟨i, hi⟩ := exists_decode (h hv)
    cases ready <;> simp [hi, exec_eq_accept, commandResponse_of_decode hi, State.accept]

end edge

/-- Settles O8: the command channel executes what it accepts. -/
theorem stepRunsTheAcceptedCommand : Obligations.StepRunsTheAcceptedCommand := by
  intro s i hp hrst hv hd hready
  rw [step_eq, clockEdge_running (s := s.passEdge) hp hrst, hready]
  simp [commandChannel, hv, hd]

/-- Settles O9: the equations of the two channels, one after the other. -/
theorem edgeMovesTheQueue : Obligations.EdgeMovesTheQueue := by
  intro s hp hrst hword
  rw [step_eq, clockEdge_running (s := s.passEdge) hp hrst, commandChannel_eq hword, responseChannel_eq]
  simp only [State.passEdge_phase, hp]
  rfl

/-! ### The queue's invariant -/

section invariant
variable {e : Edge} {s t : State}

/-- A reset edge establishes the invariant in any state: the queue is empty (R130). -/
theorem inv_resetEdge (s : State) : Inv s.resetEdge := fun _ => ⟨Nat.zero_le _, by simp, by simp⟩

/-- The schedule is no part of the invariant. -/
theorem Inv.passEdge (h : Inv s) : Inv s.passEdge := h

/-- The response channel only shortens the queue, and keeps on offer only what it leaves there (R17, R136 (a)). -/
theorem Inv.responseChannel (h : Inv s) : Inv (s.responseChannel e) := by
  intro hp
  have hp' : s.phase = .running := by simpa using hp
  obtain ⟨hlen, -, hresp⟩ := h hp'
  by_cases hd : s.delivers e = true
  · refine ⟨?_, by simp [hd], fun w hw => hresp w ?_⟩
    · simp [hd]; omega
    · exact List.mem_of_mem_tail (by simpa [hd] using hw)
  · refine ⟨by simpa [hd] using hlen, fun hv => ?_, fun w hw => hresp w (by simpa [hd] using hw)⟩
    obtain ⟨-, w, rest, hq⟩ := State.rspValid_cases hp' (e := e) (by simpa [hd] using hv)
    simp [hd, hq]

/-- An Accept into a queue with room keeps the invariant: its response is the accepted command's (R15, R16). -/
theorem Inv.accept {c : Command} {w : Word} (h : Inv s) (hroom : s.pending.length < Config.DEPTH)
    (hw : commandResponse c = some w) : Inv (s.accept w) := by
  intro hp
  obtain ⟨-, -, hresp⟩ := h hp
  refine ⟨by simpa using hroom, by simp, fun v hv => ?_⟩
  rcases (by simpa using hv : v ∈ s.pending ∨ v = w) with hv | rfl
  · exact hresp v hv
  · exact ⟨c, hw⟩

/-- Every edge keeps the invariant, by the cases of what an edge can do. -/
theorem Inv.clockEdge_next (h : Inv s) (hs : clockEdge Config.DEPTH e s = .next t) : Inv t := by
  obtain ⟨-, rfl⟩ | ⟨-, hp, ⟨i, w, hacc, hd, hexec, rfl⟩ | ⟨-, rfl⟩⟩ := clockEdge_cases hs
  case inl => exact inv_resetEdge s
  case inr.inl =>
    have hready : s.cmdReady Config.DEPTH e = true := (Bool.and_eq_true_iff.mp hacc).2
    have hw : commandResponse e.cmd = some (responseOf i) := commandResponse_of_decode hd
    rw [← Host.Outcome.next.inj ((exec_eq_accept i _).symm.trans hexec)]
    exact h.responseChannel.accept (State.room_after_response hp hready) hw
  case inr.inr => exact h.responseChannel

end invariant

/-- Settles O14: the state after reset is one that a reset edge leaves. -/
theorem queueInvariantHoldsAtReset : Obligations.QueueInvariantHoldsAtReset := inv_resetEdge State.reset

/-- Settles O15: a step is one edge, and the schedule moving on. -/
theorem everyStepKeepsQueueInvariant : Obligations.EveryStepKeepsQueueInvariant :=
  fun _ _ h hs => h.passEdge.clockEdge_next hs

end Sys2Proof.Machine

/-! PROOFS. Order and conservation of responses along a run (spec/20_memory.md R25, spec/10_state.md R17).

The idea: what the host has taken, followed by what is queued, is one list. The response channel moves a word across
the seam and leaves the list as it is; an Accept appends one word at its end. So an edge without reset appends exactly
the response accepted at it, and a run appends the responses accepted in it, one edge after another. -/

namespace Sys2Proof.Machine

/-! ### What one edge adds, keeps and leaves -/

section edge
variable {depth : Nat} {e : Edge} {s t : State}

/-- An edge without reset appends the response of the command it accepts to what was taken and queued, and nothing
else (R16, R17, R25 (a)). -/
theorem clockEdge_conserves (hrst : e.rst = false) (h : clockEdge depth e s = .next t) :
    t.taken ++ t.pending =
      s.taken ++ s.pending ++ if s.accepts depth e then (commandResponse e.cmd).toList else [] := by
  obtain ⟨hreset, -⟩ | ⟨-, -, ⟨i, w, hacc, hd, hexec, rfl⟩ | ⟨hacc, rfl⟩⟩ := clockEdge_cases h
  case inl => exact absurd hreset (by simp [hrst])
  case inr.inl =>
    have hw : (s.responseChannel e).accept w = (s.responseChannel e).accept (responseOf i) :=
      Host.Outcome.next.inj (hexec.symm.trans (exec_eq_accept i _))
    rw [hw, hacc, commandResponse_of_decode hd, State.accept_taken, State.accept_pending, ← List.append_assoc,
      State.responseChannel_conserves]
    rfl
  case inr.inr => simpa [hacc] using State.responseChannel_conserves s e

/-- The response channel only adds to what the host has taken (R17). -/
theorem State.taken_prefix_responseChannel (s : State) (e : Edge) : s.taken <+: (s.responseChannel e).taken := by
  by_cases hd : s.delivers e = true <;> simp [hd]

/-- No edge takes back what the host has taken, a reset edge included (R17, R131). -/
theorem clockEdge_taken_prefix (h : clockEdge depth e s = .next t) : s.taken <+: t.taken := by
  obtain ⟨-, rfl⟩ | ⟨-, -, ⟨i, w, -, -, -, rfl⟩ | ⟨-, rfl⟩⟩ := clockEdge_cases h
  case inl => exact List.prefix_rfl
  case inr.inl => exact s.taken_prefix_responseChannel e
  case inr.inr => exact s.taken_prefix_responseChannel e

/-- An edge does not touch the schedule. -/
theorem clockEdge_inputs (h : clockEdge depth e s = .next t) : t.inputs = s.inputs := by
  obtain ⟨-, rfl⟩ | ⟨-, -, ⟨i, w, -, -, -, rfl⟩ | ⟨-, rfl⟩⟩ := clockEdge_cases h <;> simp

/-- A step without reset adds exactly what it accepts. -/
theorem step_conserves (hrst : s.nextEdge.rst = false) (h : step s = .next t) :
    t.taken ++ t.pending = s.taken ++ s.pending ++ acceptedNow s :=
  clockEdge_conserves (s := s.passEdge) hrst h

end edge

/-! ### Runs, one step at a time -/

section run
variable {k : Nat} {s t : State}

/-- On any machine, a run of `k + 1` steps that answers a state is a step and then a run of `k` steps. -/
theorem coreRun_succ_next {M : Host.Core} {s t : M.State} (h : M.run (k + 1) s = .next t) :
    ∃ u, M.step s = .next u ∧ M.run k u = .next t := by
  unfold Host.Core.run at h
  cases hs : M.step s with
  | next u => rw [hs] at h; exact ⟨u, rfl, h⟩
  | fault r => rw [hs] at h; cases h
  | refused r => rw [hs] at h; cases h

/-- The same of XFPU, whose step is `step`. -/
theorem run_succ_next (h : Host.Core.run core (k + 1) s = .next t) :
    ∃ u, step s = .next u ∧ Host.Core.run core k u = .next t :=
  coreRun_succ_next (M := core) h

/-- What a longer run accepts is what its first step accepts, and then what the rest accepts. -/
theorem acceptedIn_succ {u : State} (hs : step s = .next u) :
    acceptedIn (k + 1) s = acceptedNow s ++ acceptedIn k u := by
  simp [acceptedIn, hs]

/-- A run without reset begins with an edge without reset, an idle one when nothing is scheduled. -/
theorem NoReset.nextEdge_rst (h : NoReset (k + 1) s) : s.nextEdge.rst = false := by
  unfold State.nextEdge
  cases hin : s.inputs with
  | nil => rfl
  | cons e rest => exact h e (by simp [hin])

/-- After its first step, a run without reset goes on without reset. -/
theorem NoReset.step {u : State} (h : NoReset (k + 1) s) (hs : step s = .next u) : NoReset k u := by
  have htail : u.inputs = s.inputs.tail := clockEdge_inputs (s := s.passEdge) hs
  intro e he
  rw [htail] at he
  cases hin : s.inputs with
  | nil => simp [hin] at he
  | cons e' rest =>
    have hrest : e ∈ rest.take k := by simpa [hin] using he
    exact h e (by simp [hin, hrest])

/-- A run without reset appends exactly the responses it accepts, in order (R25 (a)). -/
theorem run_conserves (hno : NoReset k s) (h : Host.Core.run core k s = .next t) :
    t.taken ++ t.pending = s.taken ++ s.pending ++ acceptedIn k s := by
  induction k generalizing s with
  | zero => cases h; simp [acceptedIn]
  | succ k ih =>
    obtain ⟨u, hs, hrun⟩ := run_succ_next h
    calc t.taken ++ t.pending
      _ = u.taken ++ u.pending ++ acceptedIn k u := ih (hno.step hs) hrun
      _ = s.taken ++ s.pending ++ acceptedNow s ++ acceptedIn k u := by rw [step_conserves hno.nextEdge_rst hs]
      _ = s.taken ++ s.pending ++ acceptedIn (k + 1) s := by rw [acceptedIn_succ hs, List.append_assoc]

/-- No run takes back what the host has taken (R17, R131). -/
theorem run_taken_prefix (h : Host.Core.run core k s = .next t) : s.taken <+: t.taken := by
  induction k generalizing s with
  | zero => cases h; exact List.prefix_rfl
  | succ k ih =>
    obtain ⟨u, hs, hrun⟩ := run_succ_next h
    have hfirst : s.taken <+: u.taken := clockEdge_taken_prefix (s := s.passEdge) hs
    exact hfirst.trans (ih hrun)

end run

/-- Settles O21: the run conserves the list of what is taken and queued, and only adds to what is taken. -/
theorem responsesComeInOrderOfAcceptance : Obligations.ResponsesComeInOrderOfAcceptance :=
  fun _ _ _ _ hno h => ⟨run_conserves hno h, run_taken_prefix h⟩

end Sys2Proof.Machine

/-! PROOFS. The encoding of commands (spec/30_encoding.md R36, R37, R39).

The idea: decoding after encoding is known for the ports, so the 772-bit number needs only that it gives back its four
fields. The other way round, a command word is one of sixteen: fourteen of them rebuild the command from the operands
they name, and the two reserved ones are where the decoder and a running unit stop. -/

namespace Sys2Proof

/-! ### The command as one number -/

/-- The four fields of a command stand side by side in its 772-bit number (log entry 10). -/
theorem Command.toNat_eq (c : Command) :
    c.toNat = c.op.toNat + 2 ^ 4 * (c.a.toNat + 2 ^ 256 * (c.b.toNat + 2 ^ 256 * c.c.toNat)) := by
  unfold Command.toNat
  omega

/-- The number holds nothing but the four fields. -/
theorem Command.toNat_lt (c : Command) : c.toNat < 2 ^ 772 := by
  have hop := c.op.isLt
  have ha := c.a.isLt
  have hb := c.b.isLt
  have hc := c.c.isLt
  rw [Command.toNat_eq]
  omega

/-- Reading the number gives back the command. -/
@[simp] theorem Command.ofNat_toNat (c : Command) : Command.ofNat c.toNat = c := by
  have hop := c.op.isLt
  have ha := c.a.isLt
  have hb := c.b.isLt
  have hc := c.c.isLt
  rw [Command.toNat_eq]
  obtain ⟨op, a, b, c⟩ := c
  simp only [Command.ofNat, Command.mk.injEq, ← BitVec.toNat_inj, BitVec.toNat_ofNat, Nat.shiftRight_eq_div_pow]
  refine ⟨?_, ?_, ?_, ?_⟩ <;> omega

end Sys2Proof

namespace Sys2Proof.Machine

/-- Settles O2: decoding undoes encoding on the ports, and the number carries the ports. -/
theorem decodeUndoesEncode : Obligations.DecodeUndoesEncode := by
  intro i j
  refine ⟨decode_encodeOver i j, ?_⟩
  rw [decodeTableWord, Nat.mod_eq_of_lt (Command.toNat_lt _), Command.ofNat_toNat, decode_encodeOver]

/-! ### One command word at a time -/

/-- The operand of a `.128` command is the port cut to 128 bits (R36). -/
theorem operand128_eq_setWidth (p : Word) : operand128 p = p.setWidth 128 := (portOperand_f128 p).symm

/-- Settles O1: each word selects its own row of the map; only the cut of a `.128` operand is written differently. -/
theorem commandWordsDecodeAsTheMapSays : Obligations.CommandWordsDecodeAsTheMapSays := by
  intro a b c
  simp only [← operand128_eq_setWidth]
  exact ⟨rfl, rfl, rfl, rfl, rfl, rfl, rfl, rfl, rfl, rfl, rfl, rfl, rfl, rfl, rfl, rfl⟩

/-- The decoder refuses exactly the reserved words (R39). -/
theorem decode_eq_none_iff_reserved (c : Command) : decode c = none ↔ reservedWord c.op = true :=
  (decode_eq_none_iff c).trans (commandResponse_eq_none_iff c)

/-- The reserved words are `0x7` and `0xF` (R39). -/
theorem reservedWord_iff (op : BitVec 4) : reservedWord op = true ↔ op = 0x7#4 ∨ op = 0xF#4 := by
  revert op
  decide

/-- A port is its 128-bit operand over its own upper bits (R36). -/
@[simp] theorem port128_operand128 (p : Word) : port128 (operand128 p) p = p := by
  unfold port128 operand128
  rw [BitVec.extractLsb'_append_extractLsb'_eq_extractLsb' (by decide)]
  exact BitVec.extractLsb'_eq_self

/-- Encoding what was decoded, over the command's own unused bits, gives the command back (R36, R37). -/
theorem encodeOver_of_decode {c : Command} {i : Instr} (h : decode c = some i) : encodeOver c i = c := by
  obtain ⟨op, a, b, c⟩ := c
  obtain ⟨w, hw, rfl⟩ : ∃ w < 16, op = BitVec.ofNat 4 w := ⟨op.toNat, op.isLt, by simp⟩
  interval_cases w
  -- The two reserved words decode to nothing and leave no goal; the other fourteen name the instruction.
  all_goals cases h
  all_goals simp [encodeOver]

/-- Settles O3: the decoder refuses the reserved words, and what it reads is the whole command. -/
theorem decodeReadsEveryNamedBit : Obligations.DecodeReadsEveryNamedBit :=
  fun c => ⟨decode_eq_none_iff_reserved c, fun _ hi => encodeOver_of_decode hi⟩

/-! ### Where a running unit stops -/

/-- A reset edge always has a next state (R130). -/
theorem clockEdge_reset {depth : Nat} {e : Edge} {s : State} (hrst : e.rst = true) :
    clockEdge depth e s = .next s.resetEdge := by
  simp [clockEdge, hrst]

/-- A reserved word offered without reset is refused by its name, accepted or not (R39, R135 (b)). -/
theorem step_of_reserved {s : State} (hp : s.phase = .running) (hrst : s.nextEdge.rst = false)
    (hv : s.nextEdge.cmdValid = true) (hres : reservedWord s.nextEdge.cmd.op = true) :
    step s = .refused (.reservedCommand s.nextEdge.cmd.op) := by
  rw [step_eq, clockEdge_running (s := s.passEdge) hp hrst]
  simp [commandChannel, hv, (decode_eq_none_iff_reserved _).mpr hres]

/-- A running unit that is offered no reserved word has a next state: by the reset edge, or by the equation of an edge
without reset (R110, R130). -/
theorem step_next_of_not_reserved {s : State} (hp : s.phase = .running)
    (h : ¬(s.nextEdge.rst = false ∧ s.nextEdge.cmdValid = true ∧ reservedWord s.nextEdge.cmd.op = true)) :
    ∃ t, step s = .next t := by
  cases hrst : s.nextEdge.rst with
  | true => exact ⟨_, clockEdge_reset hrst⟩
  | false =>
    have hword : s.nextEdge.cmdValid = true → reservedWord s.nextEdge.cmd.op = false :=
      fun hv => Bool.eq_false_iff.mpr fun hres => h ⟨hrst, hv, hres⟩
    exact ⟨_, edgeMovesTheQueue s hp hrst hword⟩

/-- Settles O10: a reserved word offered without reset is refused, and any other edge has a next state. -/
theorem onlyReservedWordsStopTheUnit : Obligations.OnlyReservedWordsStopTheUnit := by
  intro s hp
  refine ⟨?_, step_of_reserved hp⟩
  rw [← reservedWord_iff]
  constructor
  · intro hstop
    by_contra hno
    obtain ⟨t, ht⟩ := step_next_of_not_reserved hp hno
    exact hstop t ht
  · rintro ⟨hrst, hv, hres⟩ t
    rw [step_of_reserved hp hrst hv hres]
    simp

end Sys2Proof.Machine

/-! PROOFS. Special patterns, classes and the canonical NaN (spec/30_encoding.md R31 to R35,
spec/40_classify_normalize.md R41 to R44).

The idea: a class is a condition on the exponent and fraction fields alone, so the classes partition the pairs of fields
and the sign bit plays no part. An operation returns `QNAN`, an operand it has found not to be a NaN, a packed zero or
infinity, or a rounded result; RoundPack writes the all-ones exponent field only for an infinity. -/

namespace Sys2Proof.Machine

/-! ### The printed patterns -/

/-- `QNAN` of F128, as R35 prints it. -/
theorem qnan_f128 : qnan .f128 = 0x7FFF8000000000000000000000000000#128 := by decide +kernel

/-- `QNAN` of F256, as R35 prints it. -/
theorem qnan_f256 : qnan .f256 = 0x7FFFF80000000000000000000000000000000000000000000000000000000000#256 := by
  decide +kernel

/-- Settles O24: closed facts about the two formats, by evaluation. -/
theorem specialPatternsAreAsPrinted : Obligations.SpecialPatternsAreAsPrinted := by
  unfold Obligations.SpecialPatternsAreAsPrinted
  decide +kernel

/-! ### The classes -/

section classes
variable (F : Fmt) (x : Pattern F)

/-- The classes partition the fields: an exponent field of all ones, of zero, or between, and in the first two cases a
fraction that is zero or not (R41 to R44). -/
theorem class_count_eq_one :
    (isNaN F x).toNat + (isInf F x).toNat + (isZero F x).toNat + (isSubnormal F x).toNat + (isNormal F x).toNat =
      1 := by
  have hpos := EXP_ALL1_pos F
  have hle := bexp_le F x
  unfold isNaN isInf isZero isSubnormal isNormal
  by_cases hones : bexp F x = F.EXP_ALL1
  · have habove : ¬F.EXP_ALL1 ≤ F.EXP_ALL1 - 1 := by omega
    cases hf : frac F x == 0 <;> simp [bne, hones, hf, habove, beq_false_of_ne hpos.ne']
  by_cases hzero : bexp F x = 0
  · cases hf : frac F x == 0 <;> simp [bne, hzero, hf, beq_false_of_ne hpos.ne]
  · have hnormal : 1 ≤ bexp F x ∧ bexp F x ≤ F.EXP_ALL1 - 1 := by omega
    simp [hones, hzero, hnormal]

/-- The finite patterns are the zeros, the subnormals and the normals (R44). -/
theorem isFinite_eq_or : isFinite F x = (isZero F x || (isSubnormal F x || isNormal F x)) := by
  have hpos := EXP_ALL1_pos F
  have hle := bexp_le F x
  rw [Bool.eq_iff_iff]
  simp only [Bool.or_eq_true, isFinite_iff, isZero_iff, isSubnormal_iff, isNormal_iff]
  omega

@[simp] theorem isNaN_xor_signMask : isNaN F (x ^^^ signMask F) = isNaN F x := by simp [isNaN]
@[simp] theorem isInf_xor_signMask : isInf F (x ^^^ signMask F) = isInf F x := by simp [isInf]
@[simp] theorem isZero_xor_signMask : isZero F (x ^^^ signMask F) = isZero F x := by simp [isZero]
@[simp] theorem isSubnormal_xor_signMask : isSubnormal F (x ^^^ signMask F) = isSubnormal F x := by simp [isSubnormal]
@[simp] theorem isNormal_xor_signMask : isNormal F (x ^^^ signMask F) = isNormal F x := by simp [isNormal]

end classes

/-- Settles O25: a class is read off the two fields that inverting the sign leaves as they are. -/
theorem exactlyOneClass : Obligations.ExactlyOneClass := by
  intro F x
  exact ⟨class_count_eq_one F x, isFinite_eq_or F x, isNaN_xor_signMask F x, isInf_xor_signMask F x,
    isZero_xor_signMask F x, isSubnormal_xor_signMask F x, isNormal_xor_signMask F x, sign_xor_signMask⟩

/-! ### RoundPack gives no NaN -/

section rounding
variable {F : Fmt} {s : Bool}

/-- Pack keeps the low `FW` bits of a fraction (R47). -/
theorem pack_frac_mod (be fr : Nat) : pack F s be (fr % 2 ^ F.FW) = pack F s be fr := by
  have hfr : BitVec.ofNat F.FW (fr % 2 ^ F.FW) = BitVec.ofNat F.FW fr := BitVec.eq_of_toNat_eq (by simp)
  rw [pack, hfr, pack]

/-- A pattern packed with an exponent field below all ones is no NaN, whatever its fraction (R41). -/
theorem isNaN_pack_of_lt {be : Nat} (hb : be < F.EXP_ALL1) (fr : Nat) : isNaN F (pack F s be fr) = false := by
  have hbexp : bexp F (pack F s be fr) = be := by
    rw [← pack_frac_mod]; exact bexp_pack F s hb.le (Nat.mod_lt _ F.two_pow_FW_pos)
  simp [isNaN, hbexp, hb.ne]

/-- At or above the smallest normal, a result that has not overflowed has an exponent field below all ones (R55). -/
theorem isNaN_packNormal (r : Nat) (e : Int) : isNaN F (packNormal F s r e) = false := by
  have hbias := F.EXP_ALL1_eq
  unfold packNormal
  extract_lets carry r' e'
  split
  case isTrue => exact isNaN_infOf F s
  case isFalse hfits =>
    have hle : e' ≤ F.BIAS := not_lt.mp hfits
    exact isNaN_pack_of_lt (by omega) _

/-- The exponent field of a subnormal result is what its magnitude carries over the fraction field (R54). -/
theorem bexp_packSubnormal (r : Nat) : bexp F (packSubnormal F s r) = r / 2 ^ F.FW % 2 ^ F.EW := by
  have hzero : (zeroOf F s).extractLsb' F.FW F.EW = 0#F.EW := BitVec.eq_of_toNat_eq (bexp_zeroOf F s)
  have hN : 2 ^ F.N = 2 ^ F.FW * (2 ^ F.EW * 2) := by rw [Fmt.N_eq, pow_add, pow_add]; ring
  rw [bexp, packSubnormal, BitVec.extractLsb'_or, hzero, BitVec.zero_or, BitVec.extractLsb'_toNat,
    BitVec.toNat_ofNat, Nat.shiftRight_eq_div_pow, hN, Nat.mod_mul_right_div_self,
    Nat.mod_mod_of_dvd _ (Dvd.intro _ rfl)]

/-- Below the smallest normal, the rounded magnitude is at most the implicit bit (R54). -/
theorem roundedMagnitude_le_of_subnormal {m : Nat} {q : Int} (h : leadExponent m q < F.EMIN) :
    roundedMagnitude F m q ≤ 2 ^ F.FW := by
  have hdrop := dropCount_of_subnormal h
  have hlead : q + bitlen m - 1 < F.EMIN := h
  by_cases hd : dropCount F m q ≤ 0
  · obtain ⟨up, hup⟩ : ∃ up : Nat, dropCount F m q = -up := ⟨(-dropCount F m q).toNat, by omega⟩
    have hlen : bitlen m + up ≤ F.FW := by omega
    rw [roundedMagnitude_of_nonpos hd, hup, neg_neg, Int.toNat_natCast]
    calc m * 2 ^ up
      _ ≤ 2 ^ bitlen m * 2 ^ up := Nat.mul_le_mul_right _ (lt_two_pow_bitlen m).le
      _ = 2 ^ (bitlen m + up) := (pow_add 2 _ _).symm
      _ ≤ 2 ^ F.FW := Nat.pow_le_pow_right (by norm_num) hlen
  · obtain ⟨down, hdown⟩ : ∃ down : Nat, dropCount F m q = down := ⟨(dropCount F m q).toNat, by omega⟩
    have hm : m < 2 ^ (F.FW + down) := bitlen_le_iff.mp (by omega)
    have hquot : m / 2 ^ down < 2 ^ F.FW := Nat.div_lt_of_lt_mul (by rwa [mul_comm, ← pow_add])
    rw [roundedMagnitude_of_pos (by omega), hdown, Int.toNat_natCast]
    exact (rne_le m down (by omega)).2.trans hquot

theorem isNaN_packSubnormal {r : Nat} (hr : r ≤ 2 ^ F.FW) : isNaN F (packSubnormal F s r) = false := by
  have hq : r / 2 ^ F.FW ≤ 1 := Nat.div_le_of_le_mul (by simpa using hr)
  have hone : 1 < F.EXP_ALL1 := by cases F <;> decide
  have hbexp : bexp F (packSubnormal F s r) ≠ F.EXP_ALL1 := by
    rw [bexp_packSubnormal, Nat.mod_eq_of_lt (by rw [Fmt.two_pow_EW]; omega)]
    omega
  simp [isNaN, hbexp]

/-- RoundPack never gives a NaN (R54). -/
theorem isNaN_roundPack (s : Bool) (m : Nat) (q : Int) : isNaN F (roundPack F s m q) = false := by
  by_cases h : F.EMIN ≤ leadExponent m q
  · rw [roundPack_of_normal h]
    exact isNaN_packNormal _ _
  · rw [roundPack_of_subnormal (not_le.mp h)]
    exact isNaN_packSubnormal (roundedMagnitude_le_of_subnormal (not_le.mp h))

end rounding

/-! ### The canonical NaN -/

/-- A result that is `QNAN` if it is a NaN at all (R35). -/
def NaNIsCanonical (F : Fmt) (r : Pattern F) : Prop := isNaN F r = true → r = qnan F

section canonical
variable {F : Fmt} {r : Pattern F}

theorem NaNIsCanonical.qnan : NaNIsCanonical F (qnan F) := fun _ => rfl

theorem NaNIsCanonical.of_not_nan (h : isNaN F r = false) : NaNIsCanonical F r := fun hnan => by simp [h] at hnan

theorem NaNIsCanonical.zeroOf (s : Bool) : NaNIsCanonical F (zeroOf F s) := .of_not_nan (isNaN_zeroOf F s)

theorem NaNIsCanonical.infOf (s : Bool) : NaNIsCanonical F (infOf F s) := .of_not_nan (isNaN_infOf F s)

theorem NaNIsCanonical.roundPack (s : Bool) (m : Nat) (q : Int) : NaNIsCanonical F (roundPack F s m q) :=
  .of_not_nan (isNaN_roundPack s m q)

theorem nanIsCanonical_addTriples (g : Nat) (x y : Triple) : NaNIsCanonical F (addTriples F g x y) := by
  unfold addTriples
  dsimp only
  split
  · exact .zeroOf false
  · exact .roundPack _ _ _

theorem nanIsCanonical_fuseTerms (g : Nat) (big small : Term) : NaNIsCanonical F (fuseTerms F g big small) := by
  unfold fuseTerms
  split
  · exact .zeroOf false
  · exact .roundPack _ _ _

variable (a b c : Pattern F)

/-- ADD passes on an operand only after finding both of them not to be NaNs (R60). -/
theorem nanIsCanonical_addWith (g : Nat) : NaNIsCanonical F (addWith F g a b) := by
  unfold addWith
  split_ifs with hnan
  all_goals simp only [Bool.or_eq_true, not_or, Bool.not_eq_true] at hnan
  · exact .qnan
  · exact .qnan
  · exact .of_not_nan hnan.1
  · exact .of_not_nan hnan.2
  · exact .zeroOf _
  · exact .of_not_nan hnan.2
  · exact .of_not_nan hnan.1
  · exact nanIsCanonical_addTriples _ _ _

theorem nanIsCanonical_mul : NaNIsCanonical F (mul F a b) := by
  unfold mul
  split_ifs
  · exact .qnan
  · exact .qnan
  · exact .infOf _
  · exact .zeroOf _
  · exact .roundPack _ _ _

theorem nanIsCanonical_quo : NaNIsCanonical F (quo F a b) := by
  unfold quo
  split_ifs
  · exact .qnan
  · exact .qnan
  · exact .infOf _
  · exact .zeroOf _
  · exact .qnan
  · exact .infOf _
  · exact .zeroOf _
  · exact .roundPack _ _ _

/-- SQRT passes on its operand only after finding it not to be a NaN (R90). -/
theorem nanIsCanonical_sqrt : NaNIsCanonical F (sqrt F a) := by
  unfold sqrt
  split_ifs with hnan
  · exact .qnan
  · exact .of_not_nan (Bool.eq_false_iff.mpr hnan)
  · exact .qnan
  · exact .of_not_nan (Bool.eq_false_iff.mpr hnan)
  · exact .roundPack _ _ _

/-- FMA passes on its addend only when that is an infinity; otherwise it adds or fuses (R100, R103). -/
theorem nanIsCanonical_fmaWith (g : Nat) : NaNIsCanonical F (fmaWith F g a b c) := by
  unfold fmaWith
  split_ifs with _ hinf
  · rw [Bool.and_eq_true] at hinf
    exact .of_not_nan (isNaN_false_of_isInf hinf.1)
  · exact nanIsCanonical_addWith _ _ _
  · exact nanIsCanonical_fuseTerms _ _ _

end canonical

/-! ### A NaN operand -/

section operand
variable {F : Fmt} {a b c : Pattern F}

/-- A NaN is not finite (R41, R44). -/
theorem isFinite_false_of_isNaN (h : isNaN F a = true) : isFinite F a = false := by
  simp [isFinite, (isNaN_iff.mp h).1]

theorem sqrt_of_nan (h : isNaN F a = true) : sqrt F a = qnan F := by simp [sqrt, h]

theorem add_of_nan (h : isNaN F a = true ∨ isNaN F b = true) : add F a b = qnan F := addWith_of_nan _ h

theorem sub_of_nan (h : isNaN F a = true ∨ isNaN F b = true) : sub F a b = qnan F :=
  add_of_nan (by rwa [isNaN_xor_signMask])

/-- A NaN operand makes FMA fall back on MUL and ADD, and each hands the NaN on (R103). -/
theorem fma_of_nan (h : isNaN F a = true ∨ isNaN F b = true ∨ isNaN F c = true) : fma F a b c = qnan F := by
  have hspecial : (isSpecial F a || (isSpecial F b || isSpecial F c)) = true := by
    rcases h with h | h | h <;> simp [isSpecial, h]
  have hfallback : (isInf F c && (isFinite F a && isFinite F b)) = false := by
    rcases h with h | h | h
    · simp [isFinite_false_of_isNaN h]
    · simp [isFinite_false_of_isNaN h]
    · simp [isInf, (isNaN_iff.mp h).2]
  have hsum : fma F a b c = add F (mul F a b) c := by simp [fma, fmaWith, hspecial, hfallback]
  rw [hsum]
  rcases or_assoc.mpr h with hfactor | haddend
  · exact add_of_nan (.inl (by rw [mul_of_nan hfactor, isNaN_qnan]))
  · exact add_of_nan (.inr haddend)

end operand

/-- Settles O55: no branch of an operation makes or passes on a NaN other than `QNAN`, and a NaN operand is tested
first. -/
theorem onlyTheCanonicalNaNIsReturned : Obligations.OnlyTheCanonicalNaNIsReturned := by
  refine ⟨qnan_f128, qnan_f256, fun F a b c => ⟨?_, sqrt_of_nan, fun h => ?_, fma_of_nan⟩⟩
  · rintro r (rfl | rfl | rfl | rfl | rfl | rfl)
    · exact nanIsCanonical_addWith a b _
    · exact nanIsCanonical_addWith a _ _
    · exact nanIsCanonical_mul a b
    · exact nanIsCanonical_quo a b
    · exact nanIsCanonical_sqrt a
    · exact nanIsCanonical_fmaWith a b c _
  · exact ⟨add_of_nan h, sub_of_nan h, mul_of_nan h, quo_of_nan h⟩

end Sys2Proof.Machine

/-! PROOFS. The classification word and Normalize (spec/40_classify_normalize.md R45 to R48).

The idea: the classification word is a list of six bits, so bit `n` of it is entry `n` of the list. Normalize answers an
exponent below `EMIN` exactly for the patterns of exponent field 0, so a triple tells the two branches of R45 apart, and
in each branch the fields are read back from the triple. -/

namespace Sys2Proof.Machine

/-! ### The classification word -/

theorem toNat_ofBoolListLE_nil : (BitVec.ofBoolListLE []).toNat = 0 := rfl

/-- A list of bits as a number, its first bit the lowest. -/
theorem toNat_ofBoolListLE_cons (b : Bool) (bs : List Bool) :
    (BitVec.ofBoolListLE (b :: bs)).toNat = (BitVec.ofBoolListLE bs).toNat * 2 + b.toNat :=
  BitVec.toNat_concat _ _

section classWord
variable (F : Fmt) (a : Pattern F)

/-- The six outputs of the classifier in the order of R48, bit 0 first. -/
def classBits : List Bool := [isNaN F a, isInf F a, isZero F a, isSubnormal F a, sign F a, isNormal F a]

/-- The sum of R48 writes the classifier's outputs in binary. -/
theorem classWord_eq_ofBoolListLE : classWord F a = (BitVec.ofBoolListLE (classBits F a)).setWidth F.N := by
  apply BitVec.eq_of_toNat_eq
  simp only [classWord, classBits, BitVec.toNat_ofNat, BitVec.toNat_setWidth, toNat_ofBoolListLE_cons,
    toNat_ofBoolListLE_nil, Nat.shiftLeft_eq]
  congr 1
  ring

/-- Bit `n` of the classification word is entry `n` of the list, and 0 beyond it (R48). -/
theorem classWord_getLsbD (n : Nat) : (classWord F a).getLsbD n = (classBits F a).getD n false := by
  have hwidth : (classBits F a).length ≤ F.N := by
    show 6 ≤ F.N
    cases F <;> decide
  rw [classWord_eq_ofBoolListLE, BitVec.getLsbD_setWidth, BitVec.getLsbD_ofBoolListLE]
  by_cases hn : n < F.N
  · simp [hn]
  · simp [hn, List.getElem?_eq_none (hwidth.trans (not_lt.mp hn))]

/-- What the classification word says (R48): each output in its place, zeros above, and one class. -/
theorem classWord_bits :
    (classWord F a).getLsbD 0 = isNaN F a ∧ (classWord F a).getLsbD 1 = isInf F a ∧
    (classWord F a).getLsbD 2 = isZero F a ∧ (classWord F a).getLsbD 3 = isSubnormal F a ∧
    (classWord F a).getLsbD 4 = sign F a ∧ (classWord F a).getLsbD 5 = isNormal F a ∧
    (∀ n, 6 ≤ n → (classWord F a).getLsbD n = false) ∧
    ((classWord F a).getLsbD 0).toNat + ((classWord F a).getLsbD 1).toNat + ((classWord F a).getLsbD 2).toNat +
      ((classWord F a).getLsbD 3).toNat + ((classWord F a).getLsbD 5).toNat = 1 := by
  simp only [classWord_getLsbD]
  exact ⟨rfl, rfl, rfl, rfl, rfl, rfl, fun n hn => List.getD_eq_default _ _ hn, class_count_eq_one F a⟩

end classWord

/-- Settles O26: the class commands complete with the classification word. -/
theorem classReportsTheClassifier : Obligations.ClassReportsTheClassifier :=
  ⟨fun a _ => ⟨classWord .f128 a, rfl, classWord_bits .f128 a⟩,
    fun a _ => ⟨classWord .f256 a, rfl, classWord_bits .f256 a⟩⟩

/-! ### The triple Normalize gives -/

section normalize
variable {F : Fmt} {x y : Pattern F}

/-- A fraction field is at most `FW` bits long. -/
theorem bitlen_frac_le (F : Fmt) (x : Pattern F) : bitlen (frac F x) ≤ F.FW := bitlen_le_iff.mpr (frac_lt F x)

theorem normalize_exp_of_normal (h : bexp F x ≠ 0) : (normalize F x).exp = bexp F x - F.BIAS := by
  rw [normalize_of_normal h]

theorem normalize_frac_of_normal (h : bexp F x ≠ 0) : (normalize F x).frac = F.IMPLICIT ||| frac F x := by
  simp [normalize, h]

theorem normalize_exp_of_subnormal (h : bexp F x = 0) :
    (normalize F x).exp = bitlen (frac F x) - (F.BIAS + F.FW) := by rw [normalize_of_subnormal h]

theorem normalize_frac_of_subnormal (h : bexp F x = 0) :
    (normalize F x).frac = frac F x <<< (F.FW + 1 - bitlen (frac F x)) := by
  simp [normalize, h]

/-- A non-zero pattern of exponent field 0 has a fraction (R43, R44). -/
theorem FiniteNonzero.one_le_bitlen_frac (hx : FiniteNonzero F x) (h : bexp F x = 0) : 1 ≤ bitlen (frac F x) := by
  obtain ⟨_, hnonzero⟩ := hx
  have hfrac : frac F x ≠ 0 := fun hf => Bool.eq_false_iff.mp hnonzero (isZero_iff.mpr ⟨h, hf⟩)
  rw [bitlen_of_ne_zero hfrac]
  exact Nat.le_add_left _ _

/-- The leading one of a triple is at the implicit bit (R45). -/
theorem FiniteNonzero.normalize_frac_range (hx : FiniteNonzero F x) :
    2 ^ F.FW ≤ (normalize F x).frac ∧ (normalize F x).frac < 2 ^ F.P :=
  bitlen_eq_iff.mp (normalize_bitlen (Bool.eq_false_iff.mp hx.2))

/-- The exponent of a triple reaches `FW` below the smallest normal one, and up to the largest (R45). -/
theorem FiniteNonzero.normalize_exp_range (hx : FiniteNonzero F x) :
    F.EMIN - F.FW ≤ (normalize F x).exp ∧ (normalize F x).exp ≤ F.EMAX := by
  unfold Fmt.EMIN Fmt.EMAX
  by_cases h : bexp F x = 0
  · have hlow := hx.one_le_bitlen_frac h
    have hhigh := bitlen_frac_le F x
    rw [normalize_exp_of_subnormal h]
    omega
  · have hle := bexp_le F x
    have hfinite := isFinite_iff.mp hx.1
    have hbias := F.EXP_ALL1_eq
    rw [normalize_exp_of_normal h]
    omega

/-- The renormalizer's shift to the left is taken back by the exponent, so a triple has its pattern's value (R33, R45).
-/
theorem tripleVal_normalize (F : Fmt) (x : Pattern F) : tripleVal F (normalize F x) = val F x := by
  by_cases h : bexp F x = 0
  · have hlen := bitlen_frac_le F x
    have hscale : (F.EMIN - F.FW : Int) =
        (F.FW + 1 - bitlen (frac F x) : Nat) + ((bitlen (frac F x) : Int) - (F.BIAS + F.FW) - F.FW) := by
      unfold Fmt.EMIN; omega
    rw [val, if_pos h, normalize_of_subnormal h, hscale, zpow_add₀ two_ne_zero, zpow_natCast]
    simp only [tripleVal]
    push_cast
    ring
  · rw [val, if_neg h, normalize_of_normal h, Fmt.IMPLICIT_eq]
    simp only [tripleVal]

/-- A triple's exponent is below the smallest normal one exactly when the exponent field is 0 (R45). -/
theorem normalize_exp_lt_EMIN_iff : (normalize F x).exp < F.EMIN ↔ bexp F x = 0 := by
  unfold Fmt.EMIN
  by_cases h : bexp F x = 0
  · have hlen := bitlen_frac_le F x
    rw [normalize_exp_of_subnormal h]
    omega
  · rw [normalize_exp_of_normal h]
    omega

/-- The triples of two normal patterns determine their fields (R46). -/
theorem fields_eq_of_normal (hx : bexp F x ≠ 0) (hy : bexp F y ≠ 0) (h : normalize F x = normalize F y) :
    bexp F x = bexp F y ∧ frac F x = frac F y := by
  rw [normalize_of_normal hx, normalize_of_normal hy, Triple.mk.injEq] at h
  obtain ⟨_, hexp, hfrac⟩ := h
  omega

/-- The triples of two patterns of exponent field 0 determine the fraction: equal exponents mean equal shifts (R46). -/
theorem frac_eq_of_subnormal (hx : bexp F x = 0) (hy : bexp F y = 0) (h : normalize F x = normalize F y) :
    frac F x = frac F y := by
  rw [normalize_of_subnormal hx, normalize_of_subnormal hy, Triple.mk.injEq] at h
  obtain ⟨_, hexp, hfrac⟩ := h
  have hlen : bitlen (frac F x) = bitlen (frac F y) := by omega
  rw [hlen] at hfrac
  exact Nat.eq_of_mul_eq_mul_right (Nat.two_pow_pos _) hfrac

/-- Normalize, as R45 computes it, tells any two patterns apart: the sign is kept and the exponent names the branch
(R46). -/
theorem normalize_injective (F : Fmt) : Function.Injective (normalize F) := by
  intro x y h
  have hsign : sign F x = sign F y := by rw [← normalize_sign, h, normalize_sign]
  have hbranch : bexp F x = 0 ↔ bexp F y = 0 := by
    rw [← normalize_exp_lt_EMIN_iff, h, normalize_exp_lt_EMIN_iff]
  by_cases hx : bexp F x = 0
  · have hy := hbranch.mp hx
    exact pattern_ext hsign (hx.trans hy.symm) (frac_eq_of_subnormal hx hy h)
  · obtain ⟨hbexp, hfrac⟩ := fields_eq_of_normal hx (mt hbranch.mpr hx) h
    exact pattern_ext hsign hbexp hfrac

end normalize

/-- Settles O27: the two branches of R45, and the ranges and the value of what they give. -/
theorem normalizeKeepsTheValue : Obligations.NormalizeKeepsTheValue := by
  intro F x hx
  obtain ⟨hfracLow, hfracHigh⟩ := hx.normalize_frac_range
  obtain ⟨hexpLow, hexpHigh⟩ := hx.normalize_exp_range
  exact ⟨normalize_sign F x,
    fun h => ⟨normalize_exp_of_normal h, normalize_frac_of_normal h⟩,
    fun h => ⟨normalize_exp_of_subnormal h, normalize_frac_of_subnormal h, hx.one_le_bitlen_frac h,
      bitlen_frac_le F x⟩,
    hfracLow, hfracHigh, hexpLow, hexpHigh, tripleVal_normalize F x⟩

/-- Settles O28: Normalize is injective on all patterns, so on the finite non-zero ones. -/
theorem normalizeIsInjective : Obligations.NormalizeIsInjective :=
  fun F _ _ _ _ h => normalize_injective F h

end Sys2Proof.Machine

/-! PROOFS. The rounding engine, the sticky shift and RoundPack (spec/41_rounding.md R50 to R56).

The idea: the nearest integer of `y / 2^k` is decided by where `y` lies among the odd multiples of `2^(k-1)`. For
`k >= 2` these are even numbers, and a magnitude with a sticky bit lies on the same side of every even number as the
real it stands for, so rounding cannot tell the two apart. RoundPack drops exactly the bits below R56's unit in the
last place, and its two packing branches write down the rounded multiple of that unit. -/

namespace Sys2Proof

theorem Fmt.EMIN_le_EMAX (F : Fmt) : F.EMIN ≤ F.EMAX := by
  have hbias := F.BIAS_pos
  unfold Fmt.EMIN Fmt.EMAX
  omega

theorem Fmt.two_pow_FW_lt (F : Fmt) : 2 ^ F.FW < 2 ^ F.P := Nat.pow_lt_pow_right one_lt_two F.FW.lt_succ_self

end Sys2Proof

namespace Sys2Proof.Machine

/-! ### The nearest integer (R50) -/

section nearest
variable {y z c : ℝ} {n p : ℕ}

/-- Nearest, ties to even, by the half-way points on both sides. -/
theorem nearestEven_iff :
    NearestEven y n ↔ (n : ℝ) - 1 / 2 ≤ y ∧ y ≤ n + 1 / 2 ∧ (y = n - 1 / 2 ∨ y = n + 1 / 2 → Even n) := by
  have tie : |y - n| = 1 / 2 ↔ y = n - 1 / 2 ∨ y = n + 1 / 2 := by
    rw [abs_eq (by norm_num), or_comm]
    constructor <;> rintro (h | h) <;> [left; right; left; right] <;> linarith
  rw [NearestEven, tie, abs_le, and_assoc]
  constructor <;> rintro ⟨hlo, hhi, heven⟩ <;> exact ⟨by linarith, by linarith, heven⟩

/-- The half-way points of `y / (2 * c)`, scaled up to `y`. -/
theorem nearestEven_div_iff (hc : 0 < c) :
    NearestEven (y / (2 * c)) n ↔
      (2 * n - 1) * c ≤ y ∧ y ≤ (2 * n + 1) * c ∧ (y = (2 * n - 1) * c ∨ y = (2 * n + 1) * c → Even n) := by
  have hlow : ((n : ℝ) - 1 / 2) * (2 * c) = (2 * n - 1) * c := by ring
  have hhigh : ((n : ℝ) + 1 / 2) * (2 * c) = (2 * n + 1) * c := by ring
  have hpos : 0 < 2 * c := by linarith
  rw [nearestEven_iff, le_div_iff₀ hpos, div_le_iff₀ hpos, div_eq_iff hpos.ne', div_eq_iff hpos.ne', hlow, hhigh]

/-- Rounding to nearest even is monotonic: two different integers claim the same point only at a tie, and only the
even one does. -/
theorem NearestEven.mono (hn : NearestEven y n) (hp : NearestEven z p) (hyz : y ≤ z) : n ≤ p := by
  obtain ⟨hn_le, -, hn_even⟩ := nearestEven_iff.mp hn
  obtain ⟨-, hp_ge, hp_even⟩ := nearestEven_iff.mp hp
  by_contra hlt
  have hsucc : ((p + 1 : ℕ) : ℝ) ≤ n := Nat.cast_le.mpr (not_le.mp hlt)
  push_cast at hsucc
  have heq : n = p + 1 := by exact_mod_cast (by linarith : (n : ℝ) = p + 1)
  have hn' := hn_even (.inl (by linarith))
  rw [heq, Nat.even_add_one] at hn'
  exact hn' (hp_even (.inr (by linarith)))

theorem NearestEven.unique (hn : NearestEven y n) (hp : NearestEven y p) : n = p :=
  le_antisymm (hn.mono hp le_rfl) (hp.mono hn le_rfl)

/-- An integer is nearest to itself. -/
theorem nearestEven_natCast (n : ℕ) : NearestEven n n := by simp [NearestEven]

/-- Up to half a unit the nearest even integer is 0. -/
theorem nearestEven_zero (hy : 0 ≤ y) (hhalf : y ≤ 1 / 2) : NearestEven y 0 :=
  nearestEven_iff.mpr ⟨by push_cast; linarith, by push_cast; linarith, fun _ => Even.zero⟩

end nearest

/-! ### RNE (R50, R51) -/

/-- RNE rounds to nearest, ties to even. -/
theorem nearestEven_rne {k : ℕ} (v : ℕ) (hk : 1 ≤ k) : NearestEven ((v : ℝ) / 2 ^ k) (rne v k) := by
  obtain ⟨j, rfl⟩ : ∃ j, k = j + 1 := ⟨k - 1, by omega⟩
  obtain ⟨n, low, hlow, rfl⟩ : ∃ n low, low < 2 ^ (j + 1) ∧ v = n * 2 ^ (j + 1) + low :=
    ⟨_, _, Nat.mod_lt v (Nat.two_pow_pos _), (Nat.div_add_mod' _ _).symm⟩
  rw [rne_cases n low _ hk hlow, Nat.add_sub_cancel, pow_succ' (2 : ℝ), nearestEven_div_iff (by positivity)]
  rw [pow_succ'] at hlow
  have hlowR : (low : ℝ) < 2 * 2 ^ j := by exact_mod_cast hlow
  have hnonneg : (0 : ℝ) ≤ low := Nat.cast_nonneg _
  push_cast [pow_succ']
  split_ifs with hbelow habove
  · have hbelowR : (low : ℝ) < 2 ^ j := by exact_mod_cast hbelow
    exact ⟨by linarith, by linarith, by rintro (h | h) <;> linarith⟩
  · have haboveR : (2 : ℝ) ^ j < low := by exact_mod_cast habove
    exact ⟨by linarith, by linarith, by rintro (h | h) <;> linarith⟩
  · have htie : (low : ℝ) = 2 ^ j := by exact_mod_cast (by omega : low = 2 ^ j)
    have heven : Even (n + n % 2) := by rw [Nat.even_iff]; omega
    rw [htie]
    rcases Nat.mod_two_eq_zero_or_one n with hn | hn
    all_goals
      rw [hn] at heven ⊢
      push_cast
      exact ⟨by linarith, by linarith, fun _ => heven⟩

/-- Settles O29: every clause is a property of nearest even integers. -/
theorem rneIsNearestEven : Obligations.RneIsNearestEven := by
  intro v k hk
  refine ⟨nearestEven_rne v hk, fun hhalf => ?_, fun v' hle => ?_⟩
  · refine (nearestEven_rne v hk).unique (nearestEven_zero (by positivity) ?_)
    have hpow : (2 : ℝ) ^ k = 2 * 2 ^ (k - 1) := by rw [← pow_succ', Nat.sub_add_cancel hk]
    have hhalfR : (v : ℝ) ≤ 2 ^ (k - 1) := by exact_mod_cast hhalf
    rw [hpow, div_le_iff₀ (by positivity)]
    linarith
  · exact (nearestEven_rne v hk).mono (nearestEven_rne v' hk) (by gcongr)

theorem bitlen_pos {v : ℕ} (h : v ≠ 0) : 0 < bitlen v := by rw [bitlen_of_ne_zero h]; exact Nat.succ_pos _

/-- The kept bits of `v` are as many as are not dropped. -/
theorem bitlen_div_two_pow {v k : ℕ} (hk : k < bitlen v) : bitlen (v / 2 ^ k) = bitlen v - k := by
  obtain ⟨n, hn⟩ : ∃ n, bitlen v = n + k + 1 := ⟨bitlen v - k - 1, by omega⟩
  obtain ⟨hlo, hhi⟩ := bitlen_eq_iff.mp hn
  rw [hn, show n + k + 1 - k = n + 1 by omega, bitlen_eq_iff, Nat.le_div_iff_mul_le (Nat.two_pow_pos k),
    Nat.div_lt_iff_lt_mul (Nat.two_pow_pos k), ← pow_add, ← pow_add, show n + 1 + k = n + k + 1 by omega]
  exact ⟨hlo, hhi⟩

/-- The number after one of `l` bits has `l` bits too, or is the next power of two. -/
theorem bitlen_succ (n : ℕ) : bitlen (n + 1) = bitlen n ∨ n + 1 = 2 ^ bitlen n := by
  rcases Nat.lt_or_ge (n + 1) (2 ^ bitlen n) with hlt | hge
  · exact .inl (le_antisymm (bitlen_le_iff.mpr hlt) (bitlen_mono n.le_succ))
  · exact .inr (le_antisymm (lt_two_pow_bitlen n) hge)

theorem bitlen_two_pow (l : ℕ) : bitlen (2 ^ l) = l + 1 :=
  bitlen_eq_iff.mpr ⟨le_rfl, Nat.pow_lt_pow_right (by norm_num) l.lt_succ_self⟩

/-- Settles O30: RNE gives the kept bits or the number after them. -/
theorem rneCarriesOnlyFromAllOnes : Obligations.RneCarriesOnlyFromAllOnes := by
  intro v k hk hlt
  have hkept := bitlen_div_two_pow hlt
  obtain ⟨hlo, hhi⟩ := rne_le v k hk
  rw [Nat.shiftRight_eq_div_pow]
  rcases hlo.eq_or_lt with hsame | hup
  · exact .inl (hsame ▸ hkept)
  have hr : rne v k = v / 2 ^ k + 1 := by omega
  rw [hr]
  rcases bitlen_succ (v / 2 ^ k) with hlen | hpow
  · exact .inl (hlen.trans hkept)
  · rw [hkept] at hpow
    exact .inr ⟨Nat.eq_sub_of_add_eq hpow, hpow, by rw [hpow, bitlen_two_pow]⟩

/-! ### The sticky bit (R52, R53) -/

section sticky
variable {y : ℝ} {m : ℕ}

/-- The sticky shift holds the odd neighbour of the exact quotient. -/
theorem stickyOf_shrcompress (v d : ℕ) : StickyOf ((v : ℝ) / 2 ^ d) (shrcompress v d) := by
  have hv : (v : ℝ) = (v / 2 ^ d : ℕ) * 2 ^ d + (v % 2 ^ d : ℕ) := by
    exact_mod_cast (Nat.div_add_mod' v (2 ^ d)).symm
  have hlost : ((v % 2 ^ d : ℕ) : ℝ) < 2 ^ d := by exact_mod_cast Nat.mod_lt v (Nat.two_pow_pos d)
  have hpos : (0 : ℝ) < 2 ^ d := by positivity
  rw [shrcompress_eq]
  split_ifs with h0
  · rw [h0, Nat.cast_zero, add_zero] at hv
    exact .inl (by rw [eq_div_iff hpos.ne', hv])
  · have hsome : (0 : ℝ) < (v % 2 ^ d : ℕ) := by exact_mod_cast Nat.pos_of_ne_zero h0
    refine .inr ⟨v / 2 ^ d, ?_, ?_, rfl⟩
    · rw [lt_div_iff₀ hpos]; linarith
    · rw [div_lt_iff₀ hpos]; linarith

/-- A magnitude with a sticky bit lies on the same sides of every even number as the real it stands for. -/
theorem StickyOf.sides (h : StickyOf y m) {a : ℤ} (ha : Even a) : (y < a ↔ (m : ℝ) < a) ∧ (a < y ↔ a < (m : ℝ)) := by
  rcases h with rfl | ⟨n, hlo, hhi, rfl⟩
  · exact ⟨Iff.rfl, Iff.rfl⟩
  have hbelow : y < a ↔ (n : ℤ) < a :=
    ⟨fun h => by exact_mod_cast hlo.trans h, fun h => hhi.trans_le (by exact_mod_cast h)⟩
  have habove : (a : ℝ) < y ↔ a ≤ (n : ℤ) :=
    ⟨fun h => Int.lt_add_one_iff.mp (by exact_mod_cast h.trans hhi), fun h => lt_of_le_of_lt (by exact_mod_cast h) hlo⟩
  have heven := Int.even_iff.mp ha
  rw [hbelow, habove, ← Int.cast_natCast (n ||| 1), Int.cast_lt, Int.cast_lt, or_one_eq]
  split_ifs <;> omega

theorem even_two_pow {j : ℕ} (hj : 1 ≤ j) : Even ((2 : ℤ) ^ j) := Int.even_pow.mpr ⟨even_two, by omega⟩

/-- With two bits or more dropped, the half-way points are even, so the real and the magnitude that stands for it have
the same nearest even integers. -/
theorem StickyOf.nearestEven_iff (h : StickyOf y m) {k : ℕ} (hk : 2 ≤ k) (n : ℕ) :
    NearestEven (y / 2 ^ k) n ↔ NearestEven ((m : ℝ) / 2 ^ k) n := by
  obtain ⟨j, rfl⟩ : ∃ j, k = j + 1 := ⟨k - 1, by omega⟩
  have side : ∀ a : ℤ, (y < a * 2 ^ j ↔ (m : ℝ) < a * 2 ^ j) ∧ ((a : ℝ) * 2 ^ j < y ↔ (a : ℝ) * 2 ^ j < m) := by
    intro a
    exact_mod_cast h.sides ((even_two_pow (by omega : 1 ≤ j)).mul_left a)
  have low := side (2 * n - 1)
  have high := side (2 * n + 1)
  push_cast at low high
  rw [pow_succ', nearestEven_div_iff (by positivity), nearestEven_div_iff (by positivity)]
  simp only [← not_lt, eq_iff_le_not_lt, low, high]

theorem StickyOf.pos (h : StickyOf y m) (hy : 0 < y) : 0 < m := by
  have hzero := (h.sides Even.zero).2
  rw [Int.cast_zero] at hzero
  exact_mod_cast hzero.mp hy

/-- A real is below the power of two its magnitude is below. -/
theorem StickyOf.lt_two_pow_bitlen (h : StickyOf y m) (hm : 0 < m) : y < 2 ^ bitlen m := by
  have hside := (h.sides (even_two_pow (bitlen_pos hm.ne'))).1
  push_cast at hside
  exact hside.mpr (by exact_mod_cast Machine.lt_two_pow_bitlen m)

/-- A real is at or above the leading bit of its magnitude, if that bit is not the sticky bit itself. -/
theorem StickyOf.two_pow_bitlen_le (h : StickyOf y m) (hlen : 2 ≤ bitlen m) : 2 ^ (bitlen m - 1) ≤ y := by
  have hm : m ≠ 0 := by rintro rfl; simp at hlen
  have hside := (h.sides (even_two_pow (by omega : 1 ≤ bitlen m - 1))).1
  push_cast at hside
  rw [← not_lt, hside, not_lt]
  exact_mod_cast Machine.two_pow_bitlen_le hm

end sticky

/-- Settles O31: the quotient and the remainder of the shift are the floor and the lost bits. -/
theorem shrcompressIsSticky : Obligations.ShrcompressIsSticky := by
  intro v d
  refine ⟨by simp [shrcompress, lowbits], stickyOf_shrcompress v d, shrcompress_zero v, ?_, fun hv hlen => ?_⟩
  · rw [shrcompress_eq, Nat.zero_mod, if_pos rfl, Nat.zero_div]
  · have hlt := bitlen_le_iff.mp hlen
    rw [shrcompress_eq, Nat.mod_eq_of_lt hlt, Nat.div_eq_of_lt hlt, if_neg hv, Nat.zero_or]

/-- Settles O32: RNE rounds the magnitude that stands for the exact value, and rounding cannot tell the two apart. -/
theorem stickyBitRoundsTheExactValue : Obligations.StickyBitRoundsTheExactValue := by
  intro y m k _ hsticky hk
  exact (hsticky.nearestEven_iff hk _).mpr (nearestEven_rne m (by omega))

/-! ### R56's grid and the bits RoundPack drops (R54, R56) -/

theorem two_pow_mul_zpow (a : ℕ) (q : ℤ) : (2 : ℝ) ^ a * 2 ^ q = 2 ^ (a + q) := by
  rw [zpow_add₀ two_ne_zero, zpow_natCast]

/-- A power of two in units in the last place of its binade. -/
theorem two_pow_eq (F : Fmt) (e : ℤ) : (2 : ℝ) ^ e = 2 ^ F.FW * 2 ^ (e - F.FW) := by
  rw [two_pow_mul_zpow, add_sub_cancel]

/-- The next power of two in the same units. -/
theorem two_pow_succ_eq (F : Fmt) (e : ℤ) : (2 : ℝ) ^ (e + 1) = 2 ^ F.P * 2 ^ (e - F.FW) := by
  rw [two_pow_mul_zpow]
  congr 1
  push_cast
  ring

section grid
variable {F : Fmt} {y : ℝ} {m : ℕ} {q : ℤ}

/-- The dropped bits are those below the unit in the last place of R56, whose exponent is `max e EMIN` less `FW`. -/
theorem dropCount_eq (F : Fmt) (m : ℕ) (q : ℤ) : dropCount F m q = max (leadExponent m q) F.EMIN - F.FW - q := by
  unfold dropCount leadExponent Fmt.P
  push_cast
  omega

/-- `E` of R56 is the leading exponent of the magnitude, but not below `EMIN`. -/
theorem gridExponent_of_sticky (hy : 0 < y) (h : StickyOf y m) (hm : (m : ℝ) = y ∨ 2 ≤ dropCount F m q) :
    GridExponent F (y * 2 ^ q) (max (leadExponent m q) F.EMIN) := by
  have hmpos := h.pos hy
  have hq : (0 : ℝ) < 2 ^ q := by positivity
  refine ⟨le_max_right _ _, ?_, ?_⟩
  · calc y * 2 ^ q
      _ < 2 ^ bitlen m * 2 ^ q := mul_lt_mul_of_pos_right (h.lt_two_pow_bitlen hmpos) hq
      _ = 2 ^ (leadExponent m q + 1) := by rw [two_pow_mul_zpow]; congr 1; unfold leadExponent; omega
      _ ≤ _ := zpow_le_zpow_right₀ one_le_two (by omega)
  · rcases le_or_gt (leadExponent m q) F.EMIN with hsub | hnormal
    · exact .inr (max_eq_right hsub)
    have hlead : 2 ^ (bitlen m - 1) ≤ y := by
      rcases hm with rfl | hdrop
      · exact_mod_cast two_pow_bitlen_le hmpos.ne'
      · rw [dropCount_of_normal hnormal.le] at hdrop
        exact h.two_pow_bitlen_le (by omega)
    have hlen := bitlen_pos hmpos.ne'
    left
    calc (2 : ℝ) ^ max (leadExponent m q) F.EMIN
      _ = 2 ^ (bitlen m - 1) * 2 ^ q := by
        rw [two_pow_mul_zpow, max_eq_left hnormal.le]; congr 1; unfold leadExponent; omega
      _ ≤ y * 2 ^ q := mul_le_mul_of_nonneg_right hlead hq.le

/-- The rounded magnitude is the nearest even integer once the dropped bits are divided off (R50, R53). -/
theorem nearestEven_roundedMagnitude (h : StickyOf y m) (hm : (m : ℝ) = y ∨ 2 ≤ dropCount F m q) :
    NearestEven (y / 2 ^ dropCount F m q) (roundedMagnitude F m q) := by
  rcases le_or_gt (dropCount F m q) 0 with hup | hdown
  · obtain rfl := hm.resolve_right (by omega)
    obtain ⟨up, hup'⟩ : ∃ up : ℕ, dropCount F m q = -up := ⟨(-dropCount F m q).toNat, by omega⟩
    rw [roundedMagnitude_of_nonpos hup, hup', neg_neg, Int.toNat_natCast, zpow_neg, zpow_natCast, div_inv_eq_mul]
    exact_mod_cast nearestEven_natCast (m * 2 ^ up)
  · obtain ⟨down, hdown'⟩ : ∃ down : ℕ, dropCount F m q = down := ⟨(dropCount F m q).toNat, by omega⟩
    rw [roundedMagnitude_of_pos hdown, hdown', Int.toNat_natCast, zpow_natCast]
    rcases hm with rfl | htwo
    · exact nearestEven_rne m (by omega)
    · exact (h.nearestEven_iff (by omega) _).mpr (nearestEven_rne m (by omega))

/-- At or above the smallest normal the rounded magnitude has the precision's bits, or one more after a carry (R51,
R54). -/
theorem roundedMagnitude_of_normal (hm : m ≠ 0) (h : F.EMIN ≤ leadExponent m q) :
    bitlen (roundedMagnitude F m q) = F.P ∨ roundedMagnitude F m q = 2 ^ F.P := by
  have hdrop := dropCount_of_normal h
  have hP : 0 < F.P := F.FW.succ_pos
  rcases le_or_gt (dropCount F m q) 0 with hup | hdown
  · rw [roundedMagnitude_of_nonpos hup, ← Nat.shiftLeft_eq, bitlen_shiftLeft hm]
    omega
  · have hkept : bitlen m - (dropCount F m q).toNat = F.P := by omega
    rw [roundedMagnitude_of_pos hdown]
    rcases rneCarriesOnlyFromAllOnes m (dropCount F m q).toNat (by omega) (by omega) with hlen | ⟨_, hpow, _⟩
    · exact .inl (hlen.trans hkept)
    · exact .inr (hkept ▸ hpow)

end grid

/-! ### The packed result (R54, R55) -/

section packed
variable {F : Fmt} {s : Bool} {r : ℕ} {e : ℤ}

/-- Without a carry the rounded magnitude's lower bits are the fraction field. -/
theorem packNormal_of_lt (hr : r < 2 ^ F.P) :
    packNormal F s r e = if F.EMAX < e then infOf F s else pack F s (e + F.BIAS).toNat (r - 2 ^ F.FW) := by
  have hcarry : (r == 1 <<< F.P) = false := by rw [Nat.shiftLeft_eq, one_mul]; exact beq_false_of_ne hr.ne
  simp [packNormal, hcarry, Fmt.IMPLICIT_eq]

/-- After a carry the result is the next power of two, one exponent higher (R51). -/
theorem packNormal_two_pow_P : packNormal F s (2 ^ F.P) e = packNormal F s (2 ^ F.FW) (e + 1) := by
  have hhalf : 2 ^ F.P >>> 1 = 2 ^ F.FW := by rw [Nat.shiftRight_eq_div_pow, pow_succ]; simp
  rw [packNormal_of_lt F.two_pow_FW_lt]
  simp only [packNormal, Nat.shiftLeft_eq, one_mul, beq_self_eq_true, if_true, hhalf, Fmt.IMPLICIT_eq]

/-- A magnitude ORed under a zero of sign `s` fills the exponent and the fraction field. -/
theorem packSubnormal_eq_pack {be fr : ℕ} (hb : be ≤ F.EXP_ALL1) (hf : fr < 2 ^ F.FW) :
    packSubnormal F s (be * 2 ^ F.FW + fr) = pack F s be fr := by
  have hr : be * 2 ^ F.FW + fr < 2 ^ (F.EW + F.FW) := by
    have hbe : (be + 1) * 2 ^ F.FW ≤ 2 ^ F.EW * 2 ^ F.FW := Nat.mul_le_mul_right _ (by rw [Fmt.two_pow_EW]; omega)
    rw [pow_add]
    linarith
  have hN : be * 2 ^ F.FW + fr < 2 ^ F.N := hr.trans_le (Nat.pow_le_pow_right two_pos (by rw [Fmt.N_eq]; omega))
  have hsign : (s.toNat * 2 ^ F.EW + 0) * 2 ^ F.FW + 0 = s.toNat <<< (F.EW + F.FW) := by
    rw [Nat.shiftLeft_eq, pow_add, add_zero, add_zero, mul_assoc]
  apply BitVec.eq_of_toNat_eq
  rw [packSubnormal, BitVec.toNat_or, zeroOf, pack_toNat F s (Nat.zero_le _) F.two_pow_FW_pos, pack_toNat F s hb hf,
    BitVec.toNat_ofNat, Nat.mod_eq_of_lt hN, hsign, ← Nat.shiftLeft_add_eq_or_of_lt hr, Nat.shiftLeft_eq, pow_add]
  ring

/-- A subnormal result is its magnitude under an exponent field of zero. -/
theorem packSubnormal_of_lt (hr : r < 2 ^ F.FW) : packSubnormal F s r = pack F s 0 r := by
  rw [← packSubnormal_eq_pack (Nat.zero_le _) hr, zero_mul, zero_add]

/-- A subnormal result that rounds up to the implicit bit is the smallest normal. -/
theorem packSubnormal_two_pow_FW : packSubnormal F s (2 ^ F.FW) = packNormal F s (2 ^ F.FW) F.EMIN := by
  have hfield : (F.EMIN + F.BIAS).toNat = 1 := by unfold Fmt.EMIN; omega
  rw [packNormal_of_lt F.two_pow_FW_lt, if_neg F.EMIN_le_EMAX.not_gt, hfield, Nat.sub_self,
    ← packSubnormal_eq_pack (be := 1) (EXP_ALL1_pos F) F.two_pow_FW_pos, one_mul, add_zero]

/-- The exponent field of a normal result that has not overflowed. -/
theorem expField_range (he : F.EMIN ≤ e) (hfits : ¬ F.EMAX < e) :
    0 < (e + F.BIAS).toNat ∧ (e + F.BIAS).toNat < F.EXP_ALL1 ∧ ((e + F.BIAS).toNat : ℤ) - F.BIAS = e := by
  have hbias := F.EXP_ALL1_eq
  unfold Fmt.EMIN at he
  unfold Fmt.EMAX at hfits
  omega

end packed

/-! ### The value of the packed result (R33, R56) -/

/-- What R56 asks of the result for a rounded magnitude `V`: the zero of sign `s`, the infinity of sign `s` from
`2^(EMAX+1)` on, and otherwise the finite pattern of sign `s` and magnitude `V`. -/
def AssemblesTo (F : Fmt) (s : Bool) (V : ℝ) (r : Pattern F) : Prop :=
  (V = 0 → r = zeroOf F s) ∧ ((2 : ℝ) ^ (F.EMAX + 1) ≤ V → r = infOf F s) ∧
    (V ≠ 0 → V < 2 ^ (F.EMAX + 1) → isFinite F r = true ∧ sign F r = s ∧ (val F r : ℝ) = (signFactor s : ℝ) * V)

section value
variable {F : Fmt} {s : Bool} {X V : ℝ} {x : Pattern F} {r : ℕ} {e : ℤ}

/-- Correct rounding is a grid, the nearest even multiple of its unit, and the pattern of that multiple (R56). -/
theorem roundsTo_iff : RoundsTo F s X x ↔
    ∃ (E : ℤ) (n : ℕ), GridExponent F X E ∧ NearestEven (X / 2 ^ (E - F.FW)) n ∧
      AssemblesTo F s (n * 2 ^ (E - F.FW)) x := by
  have hunit (E : ℤ) : (2 : ℝ) ^ (E - F.FW) ≠ 0 := by positivity
  simp only [RoundsTo, AssemblesTo, mul_eq_zero, ne_eq, hunit, or_false, Nat.cast_eq_zero, mul_assoc]

theorem AssemblesTo.of_overflow (h : (2 : ℝ) ^ (F.EMAX + 1) ≤ V) : AssemblesTo F s V (infOf F s) := by
  have hpos : (0 : ℝ) < 2 ^ (F.EMAX + 1) := by positivity
  exact ⟨fun h0 => absurd h0 (hpos.trans_le h).ne', fun _ => rfl, fun _ hlt => absurd h hlt.not_ge⟩

theorem AssemblesTo.of_finite (hpos : 0 < V) (hlt : V < 2 ^ (F.EMAX + 1)) (hfinite : isFinite F x = true)
    (hsign : sign F x = s) (hval : (val F x : ℝ) = (signFactor s : ℝ) * V) : AssemblesTo F s V x :=
  ⟨fun h0 => absurd h0 hpos.ne', fun h => absurd hlt h.not_gt, fun _ _ => ⟨hfinite, hsign, hval⟩⟩

theorem AssemblesTo.sign_eq (h : AssemblesTo F s V x) : sign F x = s := by
  obtain ⟨hzero, hinf, hfinite⟩ := h
  by_cases h0 : V = 0
  · rw [hzero h0, sign_zeroOf]
  rcases le_or_gt (2 ^ (F.EMAX + 1)) V with hover | hfits
  · rw [hinf hover, sign_infOf]
  · exact (hfinite h0 hfits).2.1

/-- The infinity is the result of an overflow only. -/
theorem AssemblesTo.eq_infOf_iff (h : AssemblesTo F s V x) : x = infOf F s ↔ (2 : ℝ) ^ (F.EMAX + 1) ≤ V := by
  obtain ⟨hzero, hinf, hfinite⟩ := h
  refine ⟨fun hx => ?_, hinf⟩
  have hnot : ¬ isFinite F x = true := by rw [hx, isFinite_false_of_isInf (isInf_infOf F s)]; decide
  by_contra hfits
  by_cases h0 : V = 0
  · exact hnot (hzero h0 ▸ isFinite_of_isZero (isZero_zeroOf F s))
  · exact hnot (hfinite h0 (not_le.mp hfits)).1

/-- A significand of `P` bits at exponent `e` lies in the binade of `e`. -/
theorem binade_of_significand (hlo : 2 ^ F.FW ≤ r) (hhi : r < 2 ^ F.P) :
    (2 : ℝ) ^ e ≤ r * 2 ^ (e - F.FW) ∧ (r : ℝ) * 2 ^ (e - F.FW) < 2 ^ (e + 1) := by
  have hunit : (0 : ℝ) < 2 ^ (e - F.FW) := by positivity
  have hloR : (2 : ℝ) ^ F.FW ≤ r := by exact_mod_cast hlo
  have hhiR : (r : ℝ) < 2 ^ F.P := by exact_mod_cast hhi
  constructor
  · rw [two_pow_eq F]
    exact mul_le_mul_of_nonneg_right hloR hunit.le
  · rw [two_pow_succ_eq F]
    exact mul_lt_mul_of_pos_right hhiR hunit

/-- A normal pattern's value, by its fields (R33). -/
theorem val_pack_normal {be fr : ℕ} (hpos : 0 < be) (hb : be ≤ F.EXP_ALL1) (hf : fr < 2 ^ F.FW) :
    val F (pack F s be fr) = signFactor s * (2 ^ F.FW + fr : ℕ) * 2 ^ ((be : ℤ) - F.BIAS - F.FW) := by
  rw [val, bexp_pack F s hb hf, if_neg hpos.ne', sign_pack F s hb hf, frac_pack F s hb hf, Fmt.IMPLICIT_eq]

/-- A subnormal pattern's value, by its fraction (R33). -/
theorem val_pack_subnormal {fr : ℕ} (hf : fr < 2 ^ F.FW) :
    val F (pack F s 0 fr) = signFactor s * fr * 2 ^ (F.EMIN - F.FW) := by
  have h0 := Nat.zero_le F.EXP_ALL1
  rw [val, bexp_pack F s h0 hf, if_pos rfl, sign_pack F s h0 hf, frac_pack F s h0 hf]

/-- The branch of R54 at or above the smallest normal, without a carry. -/
theorem assemblesTo_packNormal_of_lt (he : F.EMIN ≤ e) (hlo : 2 ^ F.FW ≤ r) (hhi : r < 2 ^ F.P) :
    AssemblesTo F s (r * 2 ^ (e - F.FW)) (packNormal F s r e) := by
  obtain ⟨hbinade, hbelow⟩ := binade_of_significand (e := e) hlo hhi
  rw [packNormal_of_lt hhi]
  split_ifs with hover
  · exact .of_overflow ((zpow_le_zpow_right₀ one_le_two hover).trans hbinade)
  obtain ⟨hpos, hall, hexp⟩ := expField_range he hover
  have hf : r - 2 ^ F.FW < 2 ^ F.FW := by unfold Fmt.P at hhi; rw [pow_succ] at hhi; omega
  refine .of_finite ((zpow_pos two_pos e).trans_le hbinade)
    (hbelow.trans_le (zpow_le_zpow_right₀ one_le_two (by omega))) ?_ (sign_pack F s hall.le hf) ?_
  · rw [isFinite_iff, bexp_pack F s hall.le hf]
    exact hall.ne
  · rw [val_pack_normal hpos hall.le hf, hexp, Nat.add_sub_cancel' hlo]
    push_cast
    ring

/-- The branch of R54 at or above the smallest normal, with a carry or without. -/
theorem assemblesTo_packNormal (he : F.EMIN ≤ e) (hr : bitlen r = F.P ∨ r = 2 ^ F.P) :
    AssemblesTo F s (r * 2 ^ (e - F.FW)) (packNormal F s r e) := by
  rcases hr with hlen | rfl
  · obtain ⟨hlo, hhi⟩ := bitlen_eq_iff.mp hlen
    exact assemblesTo_packNormal_of_lt he hlo hhi
  · have hnext := assemblesTo_packNormal_of_lt (s := s) (he.trans (Int.le_add_one le_rfl)) le_rfl F.two_pow_FW_lt
    rw [← packNormal_two_pow_P] at hnext
    convert hnext using 1
    push_cast
    rw [← two_pow_succ_eq, ← two_pow_eq]

/-- The subnormal branch of R54. -/
theorem assemblesTo_packSubnormal (hr : r ≤ 2 ^ F.FW) :
    AssemblesTo F s (r * 2 ^ (F.EMIN - F.FW)) (packSubnormal F s r) := by
  rcases hr.eq_or_lt with rfl | hlt
  · rw [packSubnormal_two_pow_FW]
    exact assemblesTo_packNormal_of_lt le_rfl le_rfl F.two_pow_FW_lt
  have h0 := Nat.zero_le F.EXP_ALL1
  have hV : (r : ℝ) * 2 ^ (F.EMIN - F.FW) < 2 ^ (F.EMAX + 1) := by
    calc (r : ℝ) * 2 ^ (F.EMIN - F.FW)
      _ ≤ 2 ^ F.FW * 2 ^ (F.EMIN - F.FW) := mul_le_mul_of_nonneg_right (by exact_mod_cast hr) (by positivity)
      _ = 2 ^ F.EMIN := (two_pow_eq F _).symm
      _ < 2 ^ (F.EMAX + 1) := zpow_lt_zpow_right₀ one_lt_two (Int.lt_add_one_of_le F.EMIN_le_EMAX)
  rw [packSubnormal_of_lt hlt]
  refine ⟨?_, fun h => absurd hV h.not_gt, fun _ _ => ⟨?_, sign_pack F s h0 hlt, ?_⟩⟩
  · rw [mul_eq_zero_iff_right (by positivity), Nat.cast_eq_zero]
    rintro rfl
    rfl
  · rw [isFinite_iff, bexp_pack F s h0 hlt]
    exact (EXP_ALL1_pos F).ne
  · rw [val_pack_subnormal hlt]
    push_cast
    ring

end value

/-! ### RoundPack (R54 to R56) -/

theorem assemblesTo_roundPack {F : Fmt} (s : Bool) {m : ℕ} (hm : m ≠ 0) (q : ℤ) :
    AssemblesTo F s (roundedMagnitude F m q * 2 ^ (max (leadExponent m q) F.EMIN - F.FW)) (roundPack F s m q) := by
  rcases le_or_gt F.EMIN (leadExponent m q) with hnormal | hsub
  · rw [roundPack_of_normal hnormal, max_eq_left hnormal]
    exact assemblesTo_packNormal hnormal (roundedMagnitude_of_normal hm hnormal)
  · rw [roundPack_of_subnormal hsub, max_eq_right hsub.le]
    exact assemblesTo_packSubnormal (roundedMagnitude_le_of_subnormal hsub)

section correct
variable {F : Fmt} {y : ℝ} {m : ℕ} {q : ℤ} (hy : 0 < y) (h : StickyOf y m) (hm : (m : ℝ) = y ∨ 2 ≤ dropCount F m q)
include h hm

/-- The rounded magnitude counts the units in the last place of R56. -/
theorem nearestEven_units :
    NearestEven (y * 2 ^ q / 2 ^ (max (leadExponent m q) F.EMIN - F.FW)) (roundedMagnitude F m q) := by
  have hscale : y * 2 ^ q / 2 ^ (max (leadExponent m q) F.EMIN - F.FW) = y / 2 ^ dropCount F m q := by
    rw [dropCount_eq, zpow_sub₀ two_ne_zero _ q, div_div_eq_mul_div]
  rw [hscale]
  exact nearestEven_roundedMagnitude h hm

include hy

/-- RoundPack rounds the real that its magnitude stands for correctly. -/
theorem roundsTo_roundPack (s : Bool) : RoundsTo F s (y * 2 ^ q) (roundPack F s m q) :=
  roundsTo_iff.mpr ⟨_, _, gridExponent_of_sticky hy h hm, nearestEven_units h hm,
    assemblesTo_roundPack s (h.pos hy).ne' q⟩

end correct

/-- Settles O33: the grid of R56, the integer nearest on it, and the pattern of the rounded magnitude. -/
theorem roundPackRoundsCorrectly : Obligations.RoundPackRoundsCorrectly :=
  fun _ s _ _ _ hy hsticky hm => roundsTo_roundPack hy hsticky hm s

/-- Settles O34: each of the three results R56 allows has the sign RoundPack is given. -/
theorem roundPackKeepsTheSign : Obligations.RoundPackKeepsTheSign :=
  fun _ s _ q hm => ⟨(assemblesTo_roundPack s hm.ne' q).sign_eq, isNaN_roundPack s _ q⟩

/-! ### The overflow threshold (R55) -/

/-- The integer nearest to `y` reaches an even number `c` from half a unit below it on: the tie at `c - 1/2` goes to
the even side. -/
theorem NearestEven.even_le_iff {y : ℝ} {n c : ℕ} (h : NearestEven y n) (hc : Even c) :
    c ≤ n ↔ (c : ℝ) - 1 / 2 ≤ y := by
  obtain ⟨hlo, hhi, heven⟩ := nearestEven_iff.mp h
  constructor
  · intro hle
    have hleR : (c : ℝ) ≤ n := Nat.cast_le.mpr hle
    linarith
  · intro hle
    by_contra hlt
    have hsucc : (n : ℝ) + 1 ≤ c := by exact_mod_cast not_le.mp hlt
    obtain rfl : n + 1 = c := by exact_mod_cast (by linarith : (n : ℝ) + 1 = c)
    exact Nat.even_add_one.mp hc (heven (.inr (by linarith)))

section overflow
variable {F : Fmt} {X : ℝ} {E : ℤ} {n : ℕ}

/-- Rounding to nearest moves no value past a power of two on the grid. -/
theorem NearestEven.two_pow_le (hn : NearestEven (X / 2 ^ (E - F.FW)) n) (hX : 2 ^ E ≤ X) :
    (2 : ℝ) ^ E ≤ n * 2 ^ (E - F.FW) := by
  have hunit : (0 : ℝ) < 2 ^ (E - F.FW) := by positivity
  rw [two_pow_eq F] at hX ⊢
  have hle := (nearestEven_natCast (2 ^ F.FW)).mono hn ((le_div_iff₀ hunit).mpr (by exact_mod_cast hX))
  exact mul_le_mul_of_nonneg_right (by exact_mod_cast hle) hunit.le

theorem NearestEven.le_two_pow (hn : NearestEven (X / 2 ^ (E - F.FW)) n) (hX : X ≤ 2 ^ (E + 1)) :
    (n : ℝ) * 2 ^ (E - F.FW) ≤ 2 ^ (E + 1) := by
  have hunit : (0 : ℝ) < 2 ^ (E - F.FW) := by positivity
  rw [two_pow_succ_eq F] at hX ⊢
  have hle := hn.mono (nearestEven_natCast (2 ^ F.P)) ((div_le_iff₀ hunit).mpr (by exact_mod_cast hX))
  exact mul_le_mul_of_nonneg_right (by exact_mod_cast hle) hunit.le

/-- R55's threshold lies in the binade of the largest finite values. -/
theorem threshold_range (F : Fmt) : (2 : ℝ) ^ F.EMAX ≤ (2 ^ F.P - 1 / 2) * 2 ^ (F.EMAX - F.FW) ∧
    ((2 : ℝ) ^ F.P - 1 / 2) * 2 ^ (F.EMAX - F.FW) ≤ 2 ^ (F.EMAX + 1) := by
  have hunit : (0 : ℝ) ≤ 2 ^ (F.EMAX - F.FW) := by positivity
  have hone : (1 : ℝ) ≤ 2 ^ F.FW := one_le_pow₀ one_le_two
  constructor
  · rw [two_pow_eq F]
    refine mul_le_mul_of_nonneg_right ?_ hunit
    rw [pow_succ]; linarith
  · rw [two_pow_succ_eq F]
    exact mul_le_mul_of_nonneg_right (by linarith) hunit

/-- The rounded multiple of the unit in the last place reaches `2^(EMAX+1)` exactly when the value reaches R55's
threshold. -/
theorem overflow_iff (hgrid : GridExponent F X E) (hn : NearestEven (X / 2 ^ (E - F.FW)) n) :
    (2 : ℝ) ^ (F.EMAX + 1) ≤ n * 2 ^ (E - F.FW) ↔ ((2 : ℝ) ^ F.P - 1 / 2) * 2 ^ (F.EMAX - F.FW) ≤ X := by
  obtain ⟨hmin, hhi, hlo⟩ := hgrid
  obtain ⟨hthreshold, hthreshold'⟩ := threshold_range F
  rcases lt_trichotomy E F.EMAX with hbelow | rfl | habove
  · have hpow : (2 : ℝ) ^ (E + 1) ≤ 2 ^ F.EMAX := zpow_le_zpow_right₀ one_le_two hbelow
    have hmax : (2 : ℝ) ^ F.EMAX < 2 ^ (F.EMAX + 1) := zpow_lt_zpow_right₀ one_lt_two (Int.lt_succ _)
    have hrounded := hn.le_two_pow hhi.le
    exact iff_of_false (by linarith) (by linarith)
  · have hunit : (0 : ℝ) < 2 ^ (F.EMAX - F.FW) := by positivity
    have hnearest := hn.even_le_iff (c := 2 ^ F.P) (Nat.even_pow.mpr ⟨even_two, F.FW.succ_ne_zero⟩)
    rw [le_div_iff₀ hunit] at hnearest
    rw [two_pow_succ_eq F, mul_le_mul_iff_of_pos_right hunit]
    exact_mod_cast hnearest
  · have hpow : (2 : ℝ) ^ (F.EMAX + 1) ≤ 2 ^ E := zpow_le_zpow_right₀ one_le_two habove
    have hX : (2 : ℝ) ^ E ≤ X := hlo.resolve_right (F.EMIN_le_EMAX.trans_lt habove).ne'
    exact iff_of_true (hpow.trans (hn.two_pow_le hX)) (hthreshold'.trans (hpow.trans hX))

end overflow

/-- Settles O35: an exact magnitude overflows when its rounded multiple of the unit does. -/
theorem overflowThresholdIsExact : Obligations.OverflowThresholdIsExact := by
  intro F s m q hm
  have hgrid := gridExponent_of_sticky (F := F) (q := q) (Nat.cast_pos.mpr hm) (.inl rfl) (.inl rfl)
  have hunits := nearestEven_units (F := F) (q := q) (m := m) (.inl rfl) (.inl rfl)
  rw [(assemblesTo_roundPack s hm.ne' q).eq_infOf_iff, overflow_iff hgrid hunits, magVal, ← Rat.cast_le (K := ℝ)]
  push_cast
  rfl

end Sys2Proof.Machine

/-! PROOFS. Addition and subtraction (spec/42_addsub.md R60 to R65).

The idea: the number of guard bits is not observable, so the sum may be computed with as many of them as the alignment
shifts, and then no bit is lost. ADD of two finite non-zero operands is therefore one rounding of an exact integer in
units of the smaller operand's last place. That integer is symmetric in the operands and odd under inverting both
signs, and its value is the exact sum: correct rounding, commutativity and antisymmetry are read off it. -/

namespace Sys2Proof.Machine

/-! ### The sign and the value of a pattern (R33, R61) -/

/-- A triple with its sign inverted. -/
def Triple.negate (t : Triple) : Triple := { t with sign := !t.sign }

section sign
variable {F : Fmt} {x : Pattern F}

theorem xor_signMask_xor_signMask (F : Fmt) (x : Pattern F) : x ^^^ signMask F ^^^ signMask F = x := by
  rw [BitVec.xor_assoc, BitVec.xor_self, BitVec.xor_zero]

theorem signFactor_not (s : Bool) : signFactor (!s) = -signFactor s := by cases s <;> simp [signFactor]

theorem val_xor_signMask (F : Fmt) (x : Pattern F) : val F (x ^^^ signMask F) = -val F x := by
  simp only [val, bexp_xor_signMask, frac_xor_signMask, sign_xor_signMask, signFactor_not]
  split_ifs <;> ring

theorem normalize_xor_signMask (F : Fmt) (x : Pattern F) :
    normalize F (x ^^^ signMask F) = (normalize F x).negate := by
  simp only [normalize, bexp_xor_signMask, frac_xor_signMask, sign_xor_signMask]
  split_ifs <;> rfl

@[simp] theorem isFinite_xor_signMask : isFinite F (x ^^^ signMask F) = isFinite F x := by simp [isFinite]

theorem FiniteNonzero.xor_signMask (h : FiniteNonzero F x) : FiniteNonzero F (x ^^^ signMask F) := by
  simpa [FiniteNonzero] using h

/-- Every pattern is a NaN, an infinity or finite (R41, R42, R44). -/
theorem isNaN_or_isInf_or_isFinite (F : Fmt) (x : Pattern F) :
    isNaN F x = true ∨ isInf F x = true ∨ isFinite F x = true := by
  rw [isNaN_iff, isInf_iff, isFinite_iff]
  omega

theorem val_of_isZero (h : isZero F x = true) : val F x = 0 := by
  obtain ⟨hbexp, hfrac⟩ := isZero_iff.mp h
  simp [val, hbexp, hfrac]

/-- A finite pattern is a signed significand on the grid of its exponent: `P` bits long, or any shorter one on the
subnormal grid (R33, R45). -/
theorem exists_significand (h : isFinite F x = true) :
    ∃ (E : ℤ) (n : ℕ), F.EMIN ≤ E ∧ E ≤ F.EMAX ∧ n < 2 ^ F.P ∧ (2 ^ F.FW ≤ n ∨ E = F.EMIN) ∧
      (n = 0 → isZero F x = true) ∧ val F x = signFactor (sign F x) * (n * 2 ^ (E - F.FW)) := by
  have hfrac := frac_lt F x
  by_cases hb : bexp F x = 0
  · refine ⟨F.EMIN, frac F x, le_rfl, F.EMIN_le_EMAX, hfrac.trans F.two_pow_FW_lt, .inr rfl,
      fun h0 => isZero_iff.mpr ⟨hb, h0⟩, ?_⟩
    rw [val, if_pos hb, mul_assoc]
  · have hle := bexp_le F x
    have hall := isFinite_iff.mp h
    have hbias := F.EXP_ALL1_eq
    have hpow : 2 ^ F.P = 2 ^ F.FW + 2 ^ F.FW := by rw [pow_succ, mul_two]
    refine ⟨bexp F x - F.BIAS, 2 ^ F.FW + frac F x, ?_, ?_, by omega, .inl (by omega),
      fun h0 => absurd h0 (by have := F.two_pow_FW_pos; omega), ?_⟩
    · unfold Fmt.EMIN; omega
    · unfold Fmt.EMAX; omega
    · rw [val, if_neg hb, Fmt.IMPLICIT_eq, mul_assoc]

/-- Every finite value is a multiple of the unit of the subnormal grid (R63). -/
theorem exists_units_of_isFinite (h : isFinite F x = true) : ∃ k : ℤ, val F x = k * 2 ^ (F.EMIN - F.FW) := by
  obtain ⟨E, n, hmin, -, -, -, -, hval⟩ := exists_significand h
  obtain ⟨up, rfl⟩ : ∃ up : ℕ, E = up + F.EMIN := ⟨(E - F.EMIN).toNat, by omega⟩
  refine ⟨signed (sign F x) (n * 2 ^ up), ?_⟩
  rw [hval, add_sub_assoc, zpow_add₀ two_ne_zero, zpow_natCast]
  cases sign F x <;> simp [signFactor, signed] <;> ring

end sign

/-! ### A finite pattern is its own rounding (R56) -/

section self
variable {F : Fmt} {x : Pattern F}

/-- Correct rounding of a positive magnitude is correct rounding of the real with its sign (R56, R63). -/
theorem RoundsTo.correctSum {s : Bool} {V : ℝ} (h : RoundsTo F s V x) (hV : 0 < V) :
    CorrectSum F (signFactor s * V) x := by
  cases s <;> simp [CorrectSum, RoundsSigned, signFactor, hV.ne', hV.le, h]

/-- A finite non-zero pattern is the correct rounding of its own value. -/
theorem FiniteNonzero.roundsTo_self (h : FiniteNonzero F x) :
    ∃ V : ℝ, 0 < V ∧ (val F x : ℝ) = signFactor (sign F x) * V ∧ RoundsTo F (sign F x) V x := by
  obtain ⟨hfinite, hnonzero⟩ := h
  obtain ⟨E, n, hmin, hmax, hlt, hlead, hzero, hval⟩ := exists_significand hfinite
  have hn : n ≠ 0 := fun h0 => by simp [hzero h0] at hnonzero
  have hunit : (0 : ℝ) < 2 ^ (E - F.FW) := by positivity
  have hV : (0 : ℝ) < n * 2 ^ (E - F.FW) := mul_pos (by exact_mod_cast Nat.pos_of_ne_zero hn) hunit
  have habove : (n : ℝ) * 2 ^ (E - F.FW) < 2 ^ (E + 1) := by
    rw [two_pow_succ_eq F]
    exact mul_lt_mul_of_pos_right (by exact_mod_cast hlt) hunit
  have hvalR : (val F x : ℝ) = signFactor (sign F x) * (n * 2 ^ (E - F.FW)) := by rw [hval]; push_cast; ring
  refine ⟨n * 2 ^ (E - F.FW), hV, hvalR, roundsTo_iff.mpr ⟨E, n, ⟨hmin, habove, ?_⟩, ?_, ?_⟩⟩
  · exact hlead.imp_left fun hlo => (binade_of_significand hlo hlt).1
  · rw [mul_div_cancel_right₀ _ hunit.ne']
    exact nearestEven_natCast n
  · exact .of_finite hV (habove.trans_le (zpow_le_zpow_right₀ one_le_two (by omega))) hfinite rfl hvalR

theorem FiniteNonzero.correctSum_self (h : FiniteNonzero F x) : CorrectSum F (val F x) x := by
  obtain ⟨V, hpos, hval, hself⟩ := h.roundsTo_self
  rw [hval]
  exact hself.correctSum hpos

end self

/-! ### The exact sum of two triples -/

/-- The sum of two triples as an integer, in units of the last place of the one of smaller exponent. -/
def exactSum (x y : Triple) : ℤ :=
  signed x.sign (x.frac <<< (x.exp - min x.exp y.exp).toNat) +
    signed y.sign (y.frac <<< (y.exp - min x.exp y.exp).toNat)

section exactSum
variable {F : Fmt} {x y : Triple}

theorem exactSum_comm (x y : Triple) : exactSum x y = exactSum y x := by
  rw [exactSum, exactSum, add_comm, min_comm]

theorem signed_not (s : Bool) (m : ℕ) : signed (!s) m = -signed s m := by cases s <;> simp [signed]

theorem exactSum_negate (x y : Triple) : exactSum x.negate y.negate = -exactSum x y := by
  simp only [exactSum, Triple.negate, signed_not, neg_add]

theorem exactSum_negate_self (x : Triple) : exactSum x x.negate = 0 := by
  simp only [exactSum, Triple.negate, signed_not, add_neg_cancel]

/-- A triple's value in units of a smaller exponent's last place. -/
theorem tripleVal_eq_units {e : ℤ} (h : e ≤ x.exp) :
    tripleVal F x = signed x.sign (x.frac <<< (x.exp - e).toNat) * 2 ^ (e - F.FW) := by
  obtain ⟨up, hup⟩ : ∃ up : ℕ, x.exp = up + e := ⟨(x.exp - e).toNat, by omega⟩
  rw [tripleVal, hup, add_sub_cancel_right, Int.toNat_natCast, signed_shiftLeft, add_sub_assoc,
    zpow_add₀ two_ne_zero, zpow_natCast]
  cases x.sign <;> simp [signFactor, signed] <;> ring

theorem tripleVal_add (F : Fmt) (x y : Triple) :
    tripleVal F x + tripleVal F y = exactSum x y * 2 ^ (min x.exp y.exp - F.FW) := by
  rw [tripleVal_eq_units (min_le_left x.exp y.exp), tripleVal_eq_units (min_le_right x.exp y.exp), exactSum]
  push_cast
  ring

/-- With as many guard bits as the alignment shifts, the accumulator of R60 is the exact sum. -/
theorem guardedSum_eq_exactSum (h : y.exp ≤ x.exp) :
    guardedSum (x.exp - y.exp).toNat x.sign x.frac y.sign y.frac (x.exp - y.exp).toNat = exactSum x y := by
  rw [guardedSum, exactSum, min_eq_right h, shrcompress_shiftLeft le_rfl, Nat.sub_self, Int.sub_self, Int.toNat_zero]

theorem exactSum_orderByExp (x y : Triple) : exactSum (orderByExp x y).1 (orderByExp x y).2 = exactSum x y := by
  rcases orderByExp_cases x y with h | h <;> rw [h]
  exact exactSum_comm y x

theorem orderByExp_snd_exp (x y : Triple) : (orderByExp x y).2.exp = min x.exp y.exp := by
  unfold orderByExp
  split_ifs <;> simp only <;> omega

/-- Rounding sees the number, not its representation (R54). -/
theorem roundSum_mul_two_pow (F : Fmt) (acc : ℤ) (k : ℕ) (q : ℤ) :
    roundSum F (acc * 2 ^ k) q = roundSum F acc (q + k) := by
  have hside := SameSides.mul_two_pow 1 k acc
  unfold roundSum
  simp only [← hside.eq_zero_iff, ← hside.neg_iff]
  split_ifs with hzero
  · rfl
  · rw [Int.natAbs_mul, Int.natAbs_pow]
    exact roundPack_mul_two_pow _ (by omega) k

/-- ADD of two normalized triples is one rounding of their exact sum (R60, R63). -/
theorem addTriples_eq_exactSum (hx : bitlen x.frac = F.P) (hy : bitlen y.frac = F.P) :
    addTriples F Config.guardBits x y = roundSum F (exactSum x y) (min x.exp y.exp - F.FW) := by
  have hle := orderByExp_le x y
  rw [← addTriples_guard F (Nat.le_add_left 3 ((orderByExp x y).1.exp - (orderByExp x y).2.exp).toNat) hx hy,
    addTriples_eq_roundSum, guardedSum_of_le le_rfl 3, roundSum_mul_two_pow, guardedSum_eq_exactSum hle,
    exactSum_orderByExp, ← orderByExp_snd_exp]
  congr 1
  push_cast
  omega

end exactSum

/-! ### ADD of finite non-zero operands -/

section computed
variable {F : Fmt} {a b : Pattern F}

theorem add_of_finiteNonzero (ha : FiniteNonzero F a) (hb : FiniteNonzero F b) :
    add F a b = roundSum F (exactSum (normalize F a) (normalize F b))
      (min (normalize F a).exp (normalize F b).exp - F.FW) := by
  rw [add, addWith_of_finite ha.1 ha.2 hb.1 hb.2]
  exact addTriples_eq_exactSum (normalize_bitlen (Bool.eq_false_iff.mp ha.2))
    (normalize_bitlen (Bool.eq_false_iff.mp hb.2))

/-- Exact cancellation gives `+0` (R60). -/
theorem add_neg_self (ha : FiniteNonzero F a) : add F a (a ^^^ signMask F) = posZero F := by
  rw [add_of_finiteNonzero ha ha.xor_signMask, normalize_xor_signMask, exactSum_negate_self]
  rfl

/-- An integer is its magnitude under its own sign. -/
theorem eq_signed_natAbs (acc : ℤ) : acc = signed (decide (acc < 0)) acc.natAbs := by
  by_cases h : acc < 0
  · simp [signed, h, abs_of_neg h]
  · simp [signed, h, abs_of_nonneg (not_lt.mp h)]

/-- The last stages of R60 round an exact accumulator correctly (R56). -/
theorem correctSum_roundSum (F : Fmt) (acc q : ℤ) : CorrectSum F ((acc : ℝ) * 2 ^ q) (roundSum F acc q) := by
  have hunit : (0 : ℝ) < 2 ^ q := by positivity
  by_cases hzero : acc = 0
  · simp [hzero, CorrectSum, RoundsSigned, roundSum]
  have hmag : (0 : ℝ) < acc.natAbs := by exact_mod_cast Int.natAbs_pos.mpr hzero
  have hrounds := (roundsTo_roundPack (F := F) (q := q) hmag (.inl rfl) (.inl rfl) (decide (acc < 0))).correctSum
    (mul_pos hmag hunit)
  rw [roundSum, if_neg hzero]
  convert hrounds using 1
  rw [← mul_assoc]
  congr 1
  conv_lhs => rw [eq_signed_natAbs acc]
  cases decide (acc < 0) <;> simp [signed, signFactor]

theorem correctSum_add_of_finiteNonzero (ha : FiniteNonzero F a) (hb : FiniteNonzero F b) :
    CorrectSum F ((val F a + val F b : ℚ) : ℝ) (add F a b) := by
  rw [add_of_finiteNonzero ha hb, ← tripleVal_normalize F a, ← tripleVal_normalize F b, tripleVal_add]
  push_cast
  exact correctSum_roundSum F _ _

/-- ADD rounds the exact sum correctly, whichever operand is zero (R63). -/
theorem correctSum_add (ha : isFinite F a = true) (hb : isFinite F b = true)
    (hnonzero : (isZero F a && isZero F b) = false) : CorrectSum F ((val F a + val F b : ℚ) : ℝ) (add F a b) := by
  cases hza : isZero F a <;> cases hzb : isZero F b
  · exact correctSum_add_of_finiteNonzero ⟨ha, hza⟩ ⟨hb, hzb⟩
  · rw [val_of_isZero hzb, add_zero, add, addWith_zero_right _ ha hza hzb]
    exact FiniteNonzero.correctSum_self ⟨ha, hza⟩
  · rw [val_of_isZero hza, zero_add, add, addWith_zero_left _ hza hb hzb]
    exact FiniteNonzero.correctSum_self ⟨hb, hzb⟩
  · simp [hza, hzb] at hnonzero

/-- SUB rounds the exact difference correctly: it is the sum with the negated second operand (R61, R63). -/
theorem correctSum_sub (ha : isFinite F a = true) (hb : isFinite F b = true)
    (hnonzero : (isZero F a && isZero F b) = false) : CorrectSum F ((val F a - val F b : ℚ) : ℝ) (sub F a b) := by
  have hsum := correctSum_add (b := b ^^^ signMask F) ha (by rwa [isFinite_xor_signMask])
    (by rwa [isZero_xor_signMask])
  rwa [val_xor_signMask, ← sub_eq_add_neg] at hsum

end computed

/-- Settles O36: the sum without lost bits is rounded once, and a zero operand leaves the other, which is its own
rounding. -/
theorem addSubRoundCorrectly : Obligations.AddSubRoundCorrectly :=
  ⟨fun _ _ _ ha hb h => ⟨⟨_, rfl, correctSum_add ha hb h⟩, ⟨_, rfl, correctSum_sub ha hb h⟩⟩,
    fun _ _ _ ha hb h => ⟨⟨_, rfl, correctSum_add ha hb h⟩, ⟨_, rfl, correctSum_sub ha hb h⟩⟩⟩

/-! ### The special-value table (R65) -/

section table
variable {F : Fmt} {a b : Pattern F}

theorem add_opposite_infs (ha : isInf F a = true) (hb : isInf F b = true) (hs : sign F a ≠ sign F b) :
    add F a b = qnan F := by
  simp [add, addWith, isNaN_false_of_isInf ha, isNaN_false_of_isInf hb, ha, hb, hs]

theorem add_like_infs (ha : isInf F a = true) (hb : isInf F b = true) (hs : sign F a = sign F b) :
    add F a b = a := by
  simp [add, addWith, isNaN_false_of_isInf ha, isNaN_false_of_isInf hb, ha, hs]

theorem add_inf_finite (ha : isInf F a = true) (hb : isFinite F b = true) : add F a b = a := by
  simp [add, addWith, isNaN_false_of_isInf ha, isNaN_false_of_isFinite hb, ha, isInf_false_of_isFinite hb]

theorem add_finite_inf (ha : isFinite F a = true) (hb : isInf F b = true) : add F a b = b := by
  simp [add, addWith, isNaN_false_of_isFinite ha, isInf_false_of_isFinite ha, isNaN_false_of_isInf hb, hb]

theorem add_zeros (ha : isZero F a = true) (hb : isZero F b = true) :
    add F a b = zeroOf F (sign F a && sign F b) := addWith_zeros _ ha hb

theorem add_zero_left (ha : isZero F a = true) (hb : FiniteNonzero F b) : add F a b = b :=
  addWith_zero_left _ ha hb.1 hb.2

theorem add_zero_right (ha : FiniteNonzero F a) (hb : isZero F b = true) : add F a b = a :=
  addWith_zero_right _ ha.1 ha.2 hb

/-- ADD gives every entry of the table. -/
theorem addTable_add (F : Fmt) (a b : Pattern F) : AddTable F a b (add F a b) :=
  ⟨add_of_nan, add_opposite_infs, add_like_infs, add_inf_finite, add_finite_inf, add_zeros, add_zero_left,
    add_zero_right, fun ha hb => hb ▸ add_neg_self ha⟩

end table

/-- Settles O37: SUB is ADD of the second operand with its sign inverted, so both follow the one table. -/
theorem addSubFollowTheTable : Obligations.AddSubFollowTheTable :=
  ⟨fun a b _ => ⟨⟨_, rfl, addTable_add .f128 a b⟩, ⟨_, rfl, addTable_add .f128 a _⟩⟩,
    fun a b _ => ⟨⟨_, rfl, addTable_add .f256 a b⟩, ⟨_, rfl, addTable_add .f256 a _⟩⟩⟩

/-! ### Commutativity (R64) -/

/-- An infinity has nothing but its sign (R32). -/
theorem isInf_ext {F : Fmt} {a b : Pattern F} (ha : isInf F a = true) (hb : isInf F b = true)
    (hs : sign F a = sign F b) : a = b := by
  rw [eq_infOf_of_isInf ha, eq_infOf_of_isInf hb, hs]

/-- On finite operands ADD is symmetric because the exact sum is. -/
theorem add_comm_of_isFinite {F : Fmt} {a b : Pattern F} (ha : isFinite F a = true) (hb : isFinite F b = true) :
    add F a b = add F b a := by
  cases hza : isZero F a <;> cases hzb : isZero F b
  · rw [add_of_finiteNonzero ⟨ha, hza⟩ ⟨hb, hzb⟩, add_of_finiteNonzero ⟨hb, hzb⟩ ⟨ha, hza⟩, exactSum_comm,
      min_comm]
  · rw [add_zero_right ⟨ha, hza⟩ hzb, add_zero_left hzb ⟨ha, hza⟩]
  · rw [add_zero_left hza ⟨hb, hzb⟩, add_zero_right ⟨hb, hzb⟩ hza]
  · rw [add_zeros hza hzb, add_zeros hzb hza, Bool.and_comm]

/-- ADD is commutative on all patterns, class by class. -/
theorem add_commutes (F : Fmt) (a b : Pattern F) : add F a b = add F b a := by
  by_cases hnan : isNaN F a = true ∨ isNaN F b = true
  · rw [add_of_nan hnan, add_of_nan hnan.symm]
  obtain ⟨hna, hnb⟩ := not_or.mp hnan
  rcases (isNaN_or_isInf_or_isFinite F a).resolve_left hna with ha | ha <;>
    rcases (isNaN_or_isInf_or_isFinite F b).resolve_left hnb with hb | hb
  · by_cases hs : sign F a = sign F b
    · rw [isInf_ext ha hb hs]
    · rw [add_opposite_infs ha hb hs, add_opposite_infs hb ha (Ne.symm hs)]
  · rw [add_inf_finite ha hb, add_finite_inf hb ha]
  · rw [add_finite_inf ha hb, add_inf_finite hb ha]
  · exact add_comm_of_isFinite ha hb

theorem sub_zeros {F : Fmt} {a b : Pattern F} (ha : isZero F a = true) (hb : isZero F b = true) :
    sub F a b = zeroOf F (sign F a && !sign F b) := by
  rw [sub, add_zeros ha (by rwa [isZero_xor_signMask]), sign_xor_signMask]

/-- Settles O38: ADD by its classes, SUB by `(-0) - (+0) = -0` against `(+0) - (-0) = +0`. -/
theorem additionCommutes : Obligations.AdditionCommutes := by
  refine fun F => ⟨add_commutes F, zeroOf F true, zeroOf F false, fun heq => ?_⟩
  have hsign := congrArg (sign F) heq
  simp [sub_zeros] at hsign

/-! ### Sums in the subnormal range (R63) -/

section small
variable {F : Fmt} {a b r : Pattern F} {X : ℝ}

/-- A positive multiple of the subnormal unit below the smallest normal is its own rounding (R57). -/
theorem RoundsTo.exact_of_small {s : Bool} (h : RoundsTo F s X r) (hpos : 0 < X) (hsmall : X < 2 ^ F.EMIN) {n : ℕ}
    (hn : X = n * 2 ^ (F.EMIN - F.FW)) : isFinite F r = true ∧ (val F r : ℝ) = signFactor s * X := by
  obtain ⟨E, m, ⟨hmin, -, hlead⟩, hnearest, -, -, hfinite⟩ := h
  have hunit : (0 : ℝ) < 2 ^ (F.EMIN - F.FW) := by positivity
  have hmax : (2 : ℝ) ^ F.EMIN < 2 ^ (F.EMAX + 1) :=
    zpow_lt_zpow_right₀ one_lt_two (Int.lt_add_one_of_le F.EMIN_le_EMAX)
  obtain rfl : E = F.EMIN := hlead.resolve_left fun hle =>
    absurd (hle.trans_lt hsmall) (zpow_le_zpow_right₀ one_le_two hmin).not_gt
  rw [hn, mul_div_cancel_right₀ _ hunit.ne'] at hnearest
  obtain rfl := hnearest.unique (nearestEven_natCast n)
  have hm : m ≠ 0 := by rintro rfl; simp [hn] at hpos
  obtain ⟨hfin, -, hval⟩ := hfinite hm (hn ▸ hsmall.trans hmax)
  exact ⟨hfin, by rw [hval, hn, mul_assoc]⟩

/-- A multiple of the subnormal unit below the smallest normal is summed exactly. -/
theorem CorrectSum.exact_of_small (h : CorrectSum F X r) (hsmall : |X| < 2 ^ F.EMIN) {k : ℤ}
    (hk : X = k * 2 ^ (F.EMIN - F.FW)) : isFinite F r = true ∧ (val F r : ℝ) = X := by
  obtain ⟨hzero, hplus, hminus⟩ := h
  have hunit : (0 : ℝ) < 2 ^ (F.EMIN - F.FW) := by positivity
  have hnat : |X| = k.natAbs * 2 ^ (F.EMIN - F.FW) := by
    rw [hk, abs_mul, abs_of_pos hunit, Nat.cast_natAbs, Int.cast_abs]
  rcases lt_trichotomy X 0 with hneg | h0 | hpos
  · rw [abs_of_neg hneg] at hnat hsmall
    obtain ⟨hfinite, hval⟩ := (hminus hneg).exact_of_small (neg_pos.mpr hneg) hsmall hnat
    exact ⟨hfinite, by simp [hval, signFactor]⟩
  · have hz := isZero_zeroOf F false
    rw [hzero h0, h0]
    exact ⟨isFinite_of_isZero hz, by exact_mod_cast val_of_isZero hz⟩
  · rw [abs_of_pos hpos] at hnat hsmall
    obtain ⟨hfinite, hval⟩ := (hplus hpos).exact_of_small hpos hsmall hnat
    exact ⟨hfinite, by simp [hval, signFactor]⟩

/-- A sum of magnitude below the smallest normal is exact, the sum of two zeros included. -/
theorem add_exact_of_small (ha : isFinite F a = true) (hb : isFinite F b = true)
    (hsmall : |val F a + val F b| < 2 ^ F.EMIN) :
    isFinite F (add F a b) = true ∧ val F (add F a b) = val F a + val F b := by
  cases hzeros : isZero F a && isZero F b
  · obtain ⟨k, hk⟩ := exists_units_of_isFinite ha
    obtain ⟨l, hl⟩ := exists_units_of_isFinite hb
    have hunits : ((val F a + val F b : ℚ) : ℝ) = (k + l : ℤ) * 2 ^ (F.EMIN - F.FW) := by
      rw [hk, hl]; push_cast; ring
    have hsmallR : |((val F a + val F b : ℚ) : ℝ)| < 2 ^ F.EMIN := by
      simpa using (Rat.cast_lt (K := ℝ)).mpr hsmall
    have hexact := (correctSum_add ha hb hzeros).exact_of_small hsmallR hunits
    exact_mod_cast hexact
  · obtain ⟨hza, hzb⟩ := Bool.and_eq_true_iff.mp hzeros
    rw [add_zeros hza hzb, val_of_isZero hza, val_of_isZero hzb, add_zero]
    exact ⟨isFinite_of_isZero (isZero_zeroOf F _), val_of_isZero (isZero_zeroOf F _)⟩

end small

/-- Settles O39: the sum of two multiples of the subnormal unit is one, and below the smallest normal each of them is a
pattern's value. -/
theorem smallSumsAreExact : Obligations.SmallSumsAreExact := fun _ _ _ => add_exact_of_small

/-! ### Inverting the signs of both operands (R61) -/

section antisymmetry
variable {F : Fmt} {a b : Pattern F}

/-- Pack writes the sign into its own bit. -/
theorem pack_xor_signMask (F : Fmt) (s : Bool) (be fr : ℕ) : pack F s be fr ^^^ signMask F = pack F (!s) be fr := by
  simp only [signMask, pack, BitVec.xor_append]
  cases s <;> simp

theorem packNormal_not (s : Bool) (r : ℕ) (e : ℤ) : packNormal F (!s) r e = packNormal F s r e ^^^ signMask F := by
  unfold packNormal infOf
  extract_lets carry r' e'
  split_ifs <;> rw [pack_xor_signMask]

theorem packSubnormal_not (s : Bool) {r : ℕ} (hr : r ≤ 2 ^ F.FW) :
    packSubnormal F (!s) r = packSubnormal F s r ^^^ signMask F := by
  rcases hr.eq_or_lt with rfl | hlt
  · rw [packSubnormal_two_pow_FW, packSubnormal_two_pow_FW, packNormal_not]
  · rw [packSubnormal_of_lt hlt, packSubnormal_of_lt hlt, pack_xor_signMask]

/-- RoundPack rounds the magnitude alone (R54). -/
theorem roundPack_not (s : Bool) (m : ℕ) (q : ℤ) : roundPack F (!s) m q = roundPack F s m q ^^^ signMask F := by
  unfold roundPack
  split_ifs with h
  · exact packNormal_not _ _ _
  · exact packSubnormal_not _ (roundedMagnitude_le_of_subnormal (not_le.mp h))

theorem roundSum_neg {acc : ℤ} (h : acc ≠ 0) (q : ℤ) : roundSum F (-acc) q = roundSum F acc q ^^^ signMask F := by
  have hsign : decide (-acc < 0) = !decide (acc < 0) := by
    rw [← decide_not, decide_eq_decide]; omega
  rw [roundSum, roundSum, if_neg h, if_neg (neg_ne_zero.mpr h), Int.natAbs_neg, hsign, roundPack_not]

/-- The exact sum is odd, so the rounded one is but for the sign of an exact zero. -/
theorem add_negated_of_finiteNonzero (ha : FiniteNonzero F a) (hb : FiniteNonzero F b) :
    add F (a ^^^ signMask F) (b ^^^ signMask F) = add F a b ^^^ signMask F ∨ isZero F (add F a b) = true := by
  rw [add_of_finiteNonzero ha hb, add_of_finiteNonzero ha.xor_signMask hb.xor_signMask, normalize_xor_signMask,
    normalize_xor_signMask, exactSum_negate]
  by_cases hzero : exactSum (normalize F a) (normalize F b) = 0
  · rw [hzero]
    exact .inr (isZero_zeroOf F false)
  · exact .inl (roundSum_neg hzero _)

theorem add_negated_of_isFinite (ha : isFinite F a = true) (hb : isFinite F b = true) :
    add F (a ^^^ signMask F) (b ^^^ signMask F) = add F a b ^^^ signMask F ∨ isZero F (add F a b) = true := by
  have hza' := isZero_xor_signMask F a
  have hzb' := isZero_xor_signMask F b
  cases hza : isZero F a <;> cases hzb : isZero F b
  · exact add_negated_of_finiteNonzero ⟨ha, hza⟩ ⟨hb, hzb⟩
  · left
    rw [add_zero_right ⟨ha, hza⟩ hzb, add_zero_right (FiniteNonzero.xor_signMask ⟨ha, hza⟩) (hzb'.trans hzb)]
  · left
    rw [add_zero_left hza ⟨hb, hzb⟩, add_zero_left (hza'.trans hza) (FiniteNonzero.xor_signMask ⟨hb, hzb⟩)]
  · right
    rw [add_zeros hza hzb, isZero_zeroOf]

/-- Inverting the signs of both operands inverts the sign of the sum, unless that is a NaN or a zero. -/
theorem add_negated (F : Fmt) (a b : Pattern F) :
    add F (a ^^^ signMask F) (b ^^^ signMask F) = add F a b ^^^ signMask F ∨ isNaN F (add F a b) = true ∨
      isZero F (add F a b) = true := by
  have hinf {x : Pattern F} (hx : isInf F x = true) := (isInf_xor_signMask F x).trans hx
  have hfinite {x : Pattern F} (hx : isFinite F x = true) := (isFinite_xor_signMask (F := F)).trans hx
  by_cases hnan : isNaN F a = true ∨ isNaN F b = true
  · rw [add_of_nan hnan, isNaN_qnan]
    exact .inr (.inl rfl)
  obtain ⟨hna, hnb⟩ := not_or.mp hnan
  rcases (isNaN_or_isInf_or_isFinite F a).resolve_left hna with ha | ha <;>
    rcases (isNaN_or_isInf_or_isFinite F b).resolve_left hnb with hb | hb
  · by_cases hs : sign F a = sign F b
    · rw [add_like_infs ha hb hs, add_like_infs (hinf ha) (hinf hb) (by simp [hs])]
      exact .inl rfl
    · rw [add_opposite_infs ha hb hs, isNaN_qnan]
      exact .inr (.inl rfl)
  · rw [add_inf_finite ha hb, add_inf_finite (hinf ha) (hfinite hb)]
    exact .inl rfl
  · rw [add_finite_inf ha hb, add_finite_inf (hfinite ha) (hinf hb)]
    exact .inl rfl
  · exact (add_negated_of_isFinite ha hb).imp_right .inr

theorem sub_self_of_isFinite (ha : isFinite F a = true) : sub F a a = posZero F := by
  cases hza : isZero F a
  · exact add_neg_self ⟨ha, hza⟩
  · rw [sub_zeros hza hza, Bool.and_not_self]
    rfl

/-- Exchanging the operands of SUB inverts the signs of both terms of the sum. -/
theorem sub_swap (F : Fmt) (a b : Pattern F) :
    sub F b a = add F (a ^^^ signMask F) (b ^^^ signMask F ^^^ signMask F) := by
  rw [xor_signMask_xor_signMask, add_commutes, sub]

end antisymmetry

/-- Settles O40: exact cancellation for one half, the oddness of ADD for the other. -/
theorem subtractionIsAntisymmetric : Obligations.SubtractionIsAntisymmetric := by
  refine fun F a b => ⟨sub_self_of_isFinite, fun hnan hzero => ?_⟩
  rw [sub_swap]
  rcases add_negated F a (b ^^^ signMask F) with h | h | h
  · exact h
  · exact absurd h (Bool.eq_false_iff.mp hnan)
  · exact absurd h (Bool.eq_false_iff.mp hzero)

end Sys2Proof.Machine

/-! PROOFS. Multiplication, and one as a neutral operand (spec/43_mul.md R70 to R74, spec/44_quo.md R80).

The idea: R70 treats its operands alike, so MUL commutes branch by branch, and each half of the special-value table
gives the other. The product of two triples is one exact magnitude, so MUL of finite non-zero operands is one correct
rounding. A triple that is packed again is the pattern it came from; the product with one and the quotients by one and
by the operand itself are exact, hence such a triple over trailing zero bits. -/

namespace Sys2Proof.Machine

/-! ### Commutativity (R73) -/

section commutativity
variable {F : Fmt}

theorem mulTriples_comm (x y : Triple) : mulTriples F x y = mulTriples F y x := by
  rw [mulTriples, mulTriples, Bool.xor_comm, Nat.mul_comm, add_comm x.exp]

/-- Every test and every result of R70 is symmetric in the operands. -/
theorem mul_commutes (F : Fmt) (a b : Pattern F) : mul F a b = mul F b a := by
  rw [mul, mul, Bool.or_comm (isNaN F a), Bool.or_comm (isInf F a), Bool.or_comm (isZero F a),
    Bool.xor_comm (sign F a), mulTriples_comm]

end commutativity

/-- Settles O43: R70 treats its operands alike. -/
theorem multiplicationCommutes : Obligations.MultiplicationCommutes := mul_commutes

/-! ### The special operands of MUL (R74) -/

section special
variable {F : Fmt} {a b : Pattern F}

theorem mul_inf_zero (ha : isInf F a = true) (hb : isZero F b = true) : mul F a b = qnan F := by
  simp [mul, isNaN_false_of_isInf ha, isNaN_false_of_isFinite (isFinite_of_isZero hb), ha, hb]

theorem mul_zero_inf (ha : isZero F a = true) (hb : isInf F b = true) : mul F a b = qnan F := by
  rw [mul_commutes, mul_inf_zero hb ha]

theorem mul_infs (ha : isInf F a = true) (hb : isInf F b = true) :
    mul F a b = infOf F (sign F a ^^ sign F b) := by
  simp [mul, isNaN_false_of_isInf ha, isNaN_false_of_isInf hb, isZero_false_of_isInf ha,
    isZero_false_of_isInf hb, ha]

theorem mul_inf_finiteNonzero (ha : isInf F a = true) (hb : FiniteNonzero F b) :
    mul F a b = infOf F (sign F a ^^ sign F b) := by
  simp [mul, isNaN_false_of_isInf ha, isNaN_false_of_isFinite hb.1, isZero_false_of_isInf ha, hb.2, ha]

theorem mul_finiteNonzero_inf (ha : FiniteNonzero F a) (hb : isInf F b = true) :
    mul F a b = infOf F (sign F a ^^ sign F b) := by
  rw [mul_commutes, mul_inf_finiteNonzero hb ha, Bool.xor_comm]

theorem mul_zero_finite (ha : isZero F a = true) (hb : isFinite F b = true) :
    mul F a b = zeroOf F (sign F a ^^ sign F b) := by
  have hfa := isFinite_of_isZero ha
  simp [mul, isNaN_false_of_isFinite hfa, isInf_false_of_isFinite hfa, isNaN_false_of_isFinite hb,
    isInf_false_of_isFinite hb, ha]

theorem mul_finite_zero (ha : isFinite F a = true) (hb : isZero F b = true) :
    mul F a b = zeroOf F (sign F a ^^ sign F b) := by
  rw [mul_commutes, mul_zero_finite hb ha, Bool.xor_comm]

end special

/-! ### MUL of finite operands (R72) -/

section computed
variable {F : Fmt} {a b r : Pattern F} {s : Bool}

theorem signFactor_xor (s t : Bool) : signFactor (s ^^ t) = signFactor s * signFactor t := by
  cases s <;> cases t <;> simp [signFactor]

/-- The product of two triples is exact, with the XOR of their signs (R70). -/
theorem tripleVal_mul (F : Fmt) (x y : Triple) : tripleVal F x * tripleVal F y =
    signFactor (x.sign ^^ y.sign) * ((x.frac * y.frac : ℕ) * 2 ^ (x.exp + y.exp - 2 * F.FW)) := by
  have hscale : x.exp + y.exp - 2 * F.FW = (x.exp - F.FW) + (y.exp - F.FW) := by ring
  rw [tripleVal, tripleVal, signFactor_xor, hscale, zpow_add₀ two_ne_zero]
  push_cast
  ring

/-- The exact zero of a product has the XOR sign (R72). -/
theorem correctProduct_zeroOf (F : Fmt) (s : Bool) : CorrectProduct F s 0 (zeroOf F s) :=
  ⟨fun _ => rfl, fun h => absurd rfl h⟩

/-- Correct rounding of a positive magnitude is what MUL and QUO owe the real with its sign (R56, R72, R82). -/
theorem RoundsTo.correctProduct {V : ℝ} (h : RoundsTo F s V r) (hV : 0 < V) :
    CorrectProduct F s (signFactor s * V) r := by
  cases s <;> simp [CorrectProduct, signFactor, hV.ne', abs_of_pos hV, h]

theorem FiniteNonzero.normalize_frac_pos (hx : FiniteNonzero F a) : 0 < (normalize F a).frac :=
  F.two_pow_FW_pos.trans_le hx.normalize_frac_range.1

theorem mul_of_finiteNonzero (ha : FiniteNonzero F a) (hb : FiniteNonzero F b) :
    mul F a b = mulTriples F (normalize F a) (normalize F b) := mul_of_finite ha.1 ha.2 hb.1 hb.2

/-- No bit of the product is lost before RoundPack rounds it (R70, R71 (a)). -/
theorem correctProduct_mul_of_finiteNonzero (ha : FiniteNonzero F a) (hb : FiniteNonzero F b) :
    CorrectProduct F (sign F a ^^ sign F b) ((val F a * val F b : ℚ) : ℝ) (mul F a b) := by
  have hpos : (0 : ℝ) < ((normalize F a).frac * (normalize F b).frac : ℕ) :=
    Nat.cast_pos.mpr (Nat.mul_pos ha.normalize_frac_pos hb.normalize_frac_pos)
  have hrounds := roundsTo_roundPack (F := F) (q := (normalize F a).exp + (normalize F b).exp - 2 * F.FW) hpos
    (.inl rfl) (.inl rfl) (sign F a ^^ sign F b)
  have hcorrect := hrounds.correctProduct (mul_pos hpos (by positivity))
  rw [mul_of_finiteNonzero ha hb, mulTriples, ← tripleVal_normalize F a, ← tripleVal_normalize F b, tripleVal_mul,
    normalize_sign, normalize_sign]
  push_cast at hcorrect ⊢
  exact hcorrect

/-- MUL rounds the exact product correctly, whichever operand is zero (R72). -/
theorem correctProduct_mul (ha : isFinite F a = true) (hb : isFinite F b = true) :
    CorrectProduct F (sign F a ^^ sign F b) ((val F a * val F b : ℚ) : ℝ) (mul F a b) := by
  cases hza : isZero F a
  case true =>
    rw [val_of_isZero hza, zero_mul, Rat.cast_zero, mul_zero_finite hza hb]
    exact correctProduct_zeroOf F _
  cases hzb : isZero F b
  case true =>
    rw [val_of_isZero hzb, mul_zero, Rat.cast_zero, mul_finite_zero ha hzb]
    exact correctProduct_zeroOf F _
  exact correctProduct_mul_of_finiteNonzero ⟨ha, hza⟩ ⟨hb, hzb⟩

theorem sign_mul_of_finiteNonzero (ha : FiniteNonzero F a) (hb : FiniteNonzero F b) :
    sign F (mul F a b) = (sign F a ^^ sign F b) := by
  have hpos := Nat.mul_pos ha.normalize_frac_pos hb.normalize_frac_pos
  rw [mul_of_finiteNonzero ha hb, mulTriples, (roundPackKeepsTheSign F _ _ _ hpos).1, normalize_sign, normalize_sign]

/-- The product of finite operands has the XOR sign, a zero one and an overflow included (R72). -/
theorem sign_mul (ha : isFinite F a = true) (hb : isFinite F b = true) :
    sign F (mul F a b) = (sign F a ^^ sign F b) := by
  cases hza : isZero F a
  case true => rw [mul_zero_finite hza hb, sign_zeroOf]
  cases hzb : isZero F b
  case true => rw [mul_finite_zero ha hzb, sign_zeroOf]
  exact sign_mul_of_finiteNonzero ⟨ha, hza⟩ ⟨hb, hzb⟩

/-- MUL gives every entry of the table. -/
theorem mulTable_mul (F : Fmt) (a b : Pattern F) : MulTable F a b (mul F a b) :=
  ⟨mul_of_nan, mul_infs, mul_inf_zero, mul_inf_finiteNonzero, mul_zero_inf, mul_zero_finite, mul_finiteNonzero_inf,
    fun ha => mul_finite_zero ha.1, sign_mul_of_finiteNonzero⟩

end computed

/-- Settles O41: the exact product is rounded once, and a zero operand gives the zero of the XOR sign. -/
theorem mulRoundsCorrectly : Obligations.MulRoundsCorrectly :=
  ⟨fun _ _ _ ha hb => ⟨_, rfl, sign_mul ha hb, correctProduct_mul ha hb⟩,
    fun _ _ _ ha hb => ⟨_, rfl, sign_mul ha hb, correctProduct_mul ha hb⟩⟩

/-- Settles O42: each command completes with MUL of its operands, which gives every entry of the table. -/
theorem mulFollowsTheTable : Obligations.MulFollowsTheTable :=
  ⟨fun a b _ => ⟨_, rfl, mulTable_mul .f128 a b⟩, fun a b _ => ⟨_, rfl, mulTable_mul .f256 a b⟩⟩

/-! ### A triple packed again (R45, R54) -/

section repack
variable {F : Fmt} {x : Pattern F} {s : Bool} {m : ℕ} {q e : ℤ}

theorem roundedMagnitude_of_dropCount_zero (h : dropCount F m q = 0) : roundedMagnitude F m q = m := by
  rw [roundedMagnitude_of_nonpos h.le, h, neg_zero, Int.toNat_zero, pow_zero, mul_one]

/-- A significand of `P` bits at a normal exponent is packed as it is (R54). -/
theorem roundPack_significand (hlo : 2 ^ F.FW ≤ m) (hhi : m < 2 ^ F.P) (hmin : F.EMIN ≤ e) (hmax : e ≤ F.EMAX) :
    roundPack F s m (e - F.FW) = pack F s (e + F.BIAS).toNat (m - 2 ^ F.FW) := by
  have hlen : bitlen m = F.P := bitlen_eq_iff.mpr ⟨hlo, hhi⟩
  have hlead : leadExponent m (e - F.FW) = e := by
    simp only [leadExponent, hlen, Fmt.P]; push_cast; ring
  have hnormal : F.EMIN ≤ leadExponent m (e - F.FW) := by rwa [hlead]
  have hdrop : dropCount F m (e - F.FW) = 0 := by rw [dropCount_of_normal hnormal, hlen, sub_self]
  rw [roundPack_of_normal hnormal, roundedMagnitude_of_dropCount_zero hdrop, hlead, packNormal_of_lt hhi,
    if_neg hmax.not_gt]

/-- A magnitude on the subnormal grid below the smallest normal is packed as it is (R54, R57). -/
theorem roundPack_subnormal_units (hm : m < 2 ^ F.FW) : roundPack F s m (F.EMIN - F.FW) = pack F s 0 m := by
  have hlen := bitlen_le_iff.mpr hm
  have hlead : leadExponent m (F.EMIN - F.FW) < F.EMIN := by unfold leadExponent; omega
  have hdrop : dropCount F m (F.EMIN - F.FW) = 0 := by rw [dropCount_of_subnormal hlead, sub_self]
  rw [roundPack_of_subnormal hlead, roundedMagnitude_of_dropCount_zero hdrop, packSubnormal_of_lt hm]

/-- RoundPack takes Normalize back: a normal triple is its pattern's significand, and the shift of a subnormal one is
trailing zero bits. -/
theorem FiniteNonzero.roundPack_normalize (hx : FiniteNonzero F x) :
    roundPack F (sign F x) (normalize F x).frac ((normalize F x).exp - F.FW) = x := by
  by_cases hb : bexp F x = 0
  · have hlen := bitlen_frac_le F x
    have hfrac : frac F x ≠ 0 := fun h0 => Bool.eq_false_iff.mp hx.2 (isZero_iff.mpr ⟨hb, h0⟩)
    have hscale : (bitlen (frac F x) : ℤ) - (F.BIAS + F.FW) - F.FW + (F.FW + 1 - bitlen (frac F x) : ℕ) =
        F.EMIN - F.FW := by
      unfold Fmt.EMIN; omega
    rw [normalize_of_subnormal hb, roundPack_mul_two_pow _ hfrac, hscale, roundPack_subnormal_units (frac_lt F x),
      ← hb, pack_fields]
  · obtain ⟨hlo, hhi⟩ := hx.normalize_frac_range
    have hmin := not_lt.mp (mt normalize_exp_lt_EMIN_iff.mp hb)
    rw [roundPack_significand hlo hhi hmin hx.normalize_exp_range.2, normalize_of_normal hb]
    simp only [sub_add_cancel, Int.toNat_natCast, Nat.add_sub_cancel_left]
    exact pack_fields F x

end repack

/-! ### One (R70, R80) -/

/-- The pattern of 1.0. -/
def one (F : Fmt) : Pattern F := pack F false F.BIAS 0

section one
variable {F : Fmt} {x : Pattern F}

theorem BIAS_lt_EXP_ALL1 (F : Fmt) : F.BIAS < F.EXP_ALL1 := by rw [F.EXP_ALL1_eq]; omega

@[simp] theorem sign_one : sign F (one F) = false := sign_pack F false (BIAS_lt_EXP_ALL1 F).le F.two_pow_FW_pos
@[simp] theorem bexp_one : bexp F (one F) = F.BIAS := bexp_pack F false (BIAS_lt_EXP_ALL1 F).le F.two_pow_FW_pos
@[simp] theorem frac_one : frac F (one F) = 0 := frac_pack F false (BIAS_lt_EXP_ALL1 F).le F.two_pow_FW_pos

theorem finiteNonzero_one (F : Fmt) : FiniteNonzero F (one F) := by
  simp [FiniteNonzero, isFinite, isZero, (BIAS_lt_EXP_ALL1 F).ne, F.BIAS_pos.ne']

theorem normalize_one (F : Fmt) : normalize F (one F) = { sign := false, exp := 0, frac := 2 ^ F.FW } := by
  rw [normalize_of_normal (by rw [bexp_one]; exact F.BIAS_pos.ne')]
  simp

/-- One is rounded from its implicit bit alone. -/
theorem roundPack_one (F : Fmt) : roundPack F false (2 ^ F.FW) (0 - F.FW) = one F := by
  simpa [normalize_one] using (finiteNonzero_one F).roundPack_normalize

/-- The product with one only appends zero bits to the fraction. -/
theorem FiniteNonzero.mul_one (hx : FiniteNonzero F x) : mul F x (one F) = x := by
  have hscale : (normalize F x).exp + 0 - 2 * F.FW + F.FW = (normalize F x).exp - F.FW := by ring
  rw [mul_of_finiteNonzero hx (finiteNonzero_one F), normalize_one, mulTriples,
    roundPack_mul_two_pow _ hx.normalize_frac_pos.ne', hscale, Bool.xor_false, normalize_sign, hx.roundPack_normalize]

theorem quo_zero_finiteNonzero {y : Pattern F} (hx : isZero F x = true) (hy : FiniteNonzero F y) :
    quo F x y = zeroOf F (sign F x ^^ sign F y) := by
  have hfx := isFinite_of_isZero hx
  simp [quo, isNaN_false_of_isFinite hfx, isInf_false_of_isFinite hfx, isNaN_false_of_isFinite hy.1,
    isInf_false_of_isFinite hy.1, hy.2, hx]

theorem quo_of_finiteNonzero {y : Pattern F} (hx : FiniteNonzero F x) (hy : FiniteNonzero F y) :
    quo F x y = quoTriples F (normalize F x) (normalize F y) := quo_of_finite hx.1 hx.2 hy.1 hy.2

/-- A quotient of fractions that is exact in `FW` bits is rounded without pre-shift, guard bit and sticky bit (R80). -/
theorem quoTriples_of_exact {x y : Triple} {n : ℕ} (hy : 0 < y.frac) (hn : n ≠ 0) (hle : y.frac ≤ x.frac)
    (hexact : x.frac * 2 ^ F.FW = n * y.frac) :
    quoTriples F x y = roundPack F (x.sign ^^ y.sign) n (x.exp - y.exp - F.FW) := by
  have hdividend : x.frac <<< (F.FW + 2) = n * 2 ^ 2 * y.frac := by
    rw [Nat.shiftLeft_eq, pow_add, ← mul_assoc, hexact]; ring
  have hquotient : stickyDiv (x.frac <<< (F.FW + 2)) y.frac = n * 2 ^ 2 := by
    rw [hdividend, stickyDiv_eq, if_pos (Nat.mul_mod_left _ _), Nat.mul_div_cancel _ hy]
  have hsmall : decide (x.frac < y.frac) = false := decide_eq_false hle.not_gt
  have hscale : x.exp - y.exp - F.FW - 2 + (2 : ℕ) = x.exp - y.exp - F.FW := by push_cast; ring
  simp only [quoTriples, hsmall, Bool.false_eq_true, if_false]
  rw [hquotient, roundPack_mul_two_pow _ hn, hscale]

theorem FiniteNonzero.quo_one (hx : FiniteNonzero F x) : quo F x (one F) = x := by
  rw [quo_of_finiteNonzero hx (finiteNonzero_one F), normalize_one,
    quoTriples_of_exact F.two_pow_FW_pos hx.normalize_frac_pos.ne' hx.normalize_frac_range.1 rfl, Bool.xor_false,
    normalize_sign, sub_zero, hx.roundPack_normalize]

theorem FiniteNonzero.quo_self (hx : FiniteNonzero F x) : quo F x x = one F := by
  rw [quo_of_finiteNonzero hx hx,
    quoTriples_of_exact hx.normalize_frac_pos F.two_pow_FW_pos.ne' le_rfl (Nat.mul_comm _ _), Bool.xor_self, sub_self,
    roundPack_one]

theorem mul_one_of_isFinite (hx : isFinite F x = true) : mul F x (one F) = x := by
  cases hz : isZero F x
  case false => exact FiniteNonzero.mul_one ⟨hx, hz⟩
  case true => rw [mul_zero_finite hz (finiteNonzero_one F).1, sign_one, Bool.xor_false, ← eq_zeroOf_of_isZero hz]

theorem quo_one_of_isFinite (hx : isFinite F x = true) : quo F x (one F) = x := by
  cases hz : isZero F x
  case false => exact FiniteNonzero.quo_one ⟨hx, hz⟩
  case true =>
    rw [quo_zero_finiteNonzero hz (finiteNonzero_one F), sign_one, Bool.xor_false, ← eq_zeroOf_of_isZero hz]

end one

/-- Settles O46: the product with one and the quotient by one are the operand's own triple, packed again, and the
quotient by itself is the triple of one. -/
theorem oneIsNeutral : Obligations.OneIsNeutral :=
  fun _ _ hx => ⟨mul_one_of_isFinite hx, quo_one_of_isFinite hx, fun hz => FiniteNonzero.quo_self ⟨hx, hz⟩⟩

end Sys2Proof.Machine

/-! PROOFS. Division (spec/44_quo.md R80 to R83).

The idea: R80 shifts the dividend's fraction far enough to the left that the integer quotient has two bits below the
rounding position, and ORs the remainder into the lower one. That number is the odd neighbour of the exact quotient in
the sense of R53, so RoundPack rounds the exact quotient. -/

namespace Sys2Proof.Machine

/-! ### The special operands (R83) -/

section special
variable {F : Fmt} {a b : Pattern F}

theorem quo_infs (ha : isInf F a = true) (hb : isInf F b = true) : quo F a b = qnan F := by
  simp [quo, ha, hb]

/-- An infinite dividend keeps its magnitude, over a zero divisor too (R80). -/
theorem quo_inf_finite (ha : isInf F a = true) (hb : isFinite F b = true) :
    quo F a b = infOf F (sign F a ^^ sign F b) := by
  simp [quo, isNaN_false_of_isInf ha, isNaN_false_of_isFinite hb, ha, isInf_false_of_isFinite hb]

theorem quo_finite_inf (ha : isFinite F a = true) (hb : isInf F b = true) :
    quo F a b = zeroOf F (sign F a ^^ sign F b) := by
  simp [quo, isNaN_false_of_isFinite ha, isInf_false_of_isFinite ha, isNaN_false_of_isInf hb, hb]

theorem quo_zeros (ha : isZero F a = true) (hb : isZero F b = true) : quo F a b = qnan F := by
  have hfa := isFinite_of_isZero ha
  have hfb := isFinite_of_isZero hb
  simp [quo, isInf_false_of_isFinite hfa, isInf_false_of_isFinite hfb, ha, hb]

/-- Division of a non-zero value by zero gives an infinity (R80). -/
theorem quo_finiteNonzero_zero (ha : FiniteNonzero F a) (hb : isZero F b = true) :
    quo F a b = infOf F (sign F a ^^ sign F b) := by
  have hfb := isFinite_of_isZero hb
  simp [quo, not_special ha.1 ha.2, ha.2, isNaN_false_of_isFinite hfb, isInf_false_of_isFinite hfb, hb]

end special

/-! ### The integer quotient and its sticky bit (R53, R80) -/

section stickyDiv
variable {n d : ℕ}

/-- The remainder's bit makes the integer quotient the odd neighbour of the exact one (R81 (b)). -/
theorem stickyOf_stickyDiv (n : ℕ) (hd : 0 < d) : StickyOf ((n : ℝ) / d) (stickyDiv n d) := by
  have hn : (n : ℝ) = (n / d : ℕ) * d + (n % d : ℕ) := by exact_mod_cast (Nat.div_add_mod' n d).symm
  have hrem : ((n % d : ℕ) : ℝ) < d := by exact_mod_cast Nat.mod_lt n hd
  have hpos : (0 : ℝ) < d := by exact_mod_cast hd
  rw [stickyDiv_eq]
  split_ifs with h0
  · rw [h0, Nat.cast_zero, add_zero] at hn
    exact .inl (by rw [eq_div_iff hpos.ne', hn])
  · have hsome : (0 : ℝ) < (n % d : ℕ) := by exact_mod_cast Nat.pos_of_ne_zero h0
    refine .inr ⟨n / d, ?_, ?_, rfl⟩
    · rw [lt_div_iff₀ hpos]; linarith
    · rw [div_lt_iff₀ hpos]; linarith

theorem div_le_stickyDiv (n d : ℕ) : n / d ≤ stickyDiv n d := by
  rw [stickyDiv_eq]
  split_ifs
  · exact le_rfl
  · exact Nat.left_le_or

/-- A quotient of `P + 2` bits leaves two of them to RoundPack (R81 (b)). -/
theorem two_le_dropCount_stickyDiv (F : Fmt) (hd : 0 < d) (h : 2 ^ (F.FW + 2) * d ≤ n) (q : ℤ) :
    2 ≤ dropCount F (stickyDiv n d) q := by
  have hle : 2 ^ (F.FW + 2) ≤ stickyDiv n d := ((Nat.le_div_iff_mul_le hd).mpr h).trans (div_le_stickyDiv n d)
  have hlen : F.FW + 3 ≤ bitlen (stickyDiv n d) := bitlen_two_pow (F.FW + 2) ▸ bitlen_mono hle
  have hdrop := le_dropCount F (stickyDiv n d) q
  unfold Fmt.P at hdrop
  omega

end stickyDiv

/-! ### The quotient of two triples (R80, R82) -/

/-- The divide, round and assemble stages of R80 with the dividend's fraction shifted left by `k` places in all. -/
def divideShifted (F : Fmt) (k : ℕ) (x y : Triple) : Pattern F :=
  roundPack F (x.sign ^^ y.sign) (stickyDiv (x.frac * 2 ^ k) y.frac) (x.exp - y.exp - k)

section triples
variable {F : Fmt} {x y : Triple} {k : ℕ}

theorem quoTriples_of_le (h : y.frac ≤ x.frac) : quoTriples F x y = divideShifted F (F.FW + 2) x y := by
  have hscale : x.exp - y.exp - (F.FW + 2 : ℕ) = x.exp - y.exp - F.FW - 2 := by push_cast; ring
  rw [divideShifted, hscale]
  simp [quoTriples, h.not_gt, Nat.shiftLeft_eq]

/-- The pre-shift is one more place (R80). -/
theorem quoTriples_of_lt (h : x.frac < y.frac) : quoTriples F x y = divideShifted F (F.FW + 3) x y := by
  have hscale : x.exp - y.exp - (F.FW + 3 : ℕ) = x.exp - y.exp - 1 - F.FW - 2 := by push_cast; ring
  have hshift : x.frac * 2 ^ (F.FW + 3) = x.frac * 2 * 2 ^ (F.FW + 2) := by ring
  rw [divideShifted, hscale, hshift]
  simp [quoTriples, h, Nat.shiftLeft_eq]

/-- With or without the pre-shift, the quotient of two normalized fractions has `P + 2` bits (R80). -/
theorem exists_quoTriples_eq (h : y.frac ≤ 2 * x.frac) :
    ∃ k, 2 ^ (F.FW + 2) * y.frac ≤ x.frac * 2 ^ k ∧ quoTriples F x y = divideShifted F k x y := by
  rcases le_or_gt y.frac x.frac with hle | hlt
  · refine ⟨F.FW + 2, ?_, quoTriples_of_le hle⟩
    rw [Nat.mul_comm]
    exact Nat.mul_le_mul_right _ hle
  · refine ⟨F.FW + 3, ?_, quoTriples_of_lt hlt⟩
    calc 2 ^ (F.FW + 2) * y.frac
      _ ≤ 2 ^ (F.FW + 2) * (2 * x.frac) := Nat.mul_le_mul_left _ h
      _ = x.frac * 2 ^ (F.FW + 3) := by ring

theorem signFactor_div (s t : Bool) : signFactor s / signFactor t = signFactor (s ^^ t) := by
  cases s <;> cases t <;> simp [signFactor]

/-- The quotient of two triples, as the quotient of their fractions with the dividend's shifted by `k` places. -/
theorem tripleVal_div (F : Fmt) (k : ℕ) (x y : Triple) : tripleVal F x / tripleVal F y =
    signFactor (x.sign ^^ y.sign) * ((x.frac * 2 ^ k : ℕ) / y.frac * 2 ^ (x.exp - y.exp - k)) := by
  have hscale : (2 : ℚ) ^ (x.exp - y.exp - k) = 2 ^ (x.exp - F.FW) / 2 ^ (y.exp - F.FW) / 2 ^ k := by
    rw [← zpow_natCast, ← zpow_sub₀ two_ne_zero, ← zpow_sub₀ two_ne_zero, sub_sub_sub_cancel_right]
  rw [tripleVal, tripleVal, ← signFactor_div, hscale, Nat.cast_mul, Nat.cast_pow, Nat.cast_ofNat]
  field_simp

section shifted
variable (hy : 0 < y.frac) (h : 2 ^ (F.FW + 2) * y.frac ≤ x.frac * 2 ^ k)
include hy h

theorem shiftedQuotient_pos : (0 : ℝ) < (x.frac * 2 ^ k : ℕ) / y.frac := by
  have hdividend : 0 < x.frac * 2 ^ k := lt_of_lt_of_le (by positivity) h
  exact div_pos (Nat.cast_pos.mpr hdividend) (Nat.cast_pos.mpr hy)

/-- RoundPack rounds the exact quotient, for which the sticky bit stands (R53, R81 (b)). -/
theorem correctProduct_divideShifted :
    CorrectProduct F (x.sign ^^ y.sign) ((tripleVal F x / tripleVal F y : ℚ) : ℝ) (divideShifted F k x y) := by
  have hquotient := shiftedQuotient_pos hy h
  have hrounds := roundsTo_roundPack hquotient (stickyOf_stickyDiv _ hy)
    (.inr (two_le_dropCount_stickyDiv F hy h (x.exp - y.exp - k))) (x.sign ^^ y.sign)
  have hcorrect := hrounds.correctProduct (mul_pos hquotient (by positivity))
  rw [tripleVal_div F k]
  push_cast at hcorrect ⊢
  exact hcorrect

theorem sign_divideShifted : sign F (divideShifted F k x y) = (x.sign ^^ y.sign) := by
  have hpos := (stickyOf_stickyDiv _ hy).pos (shiftedQuotient_pos hy h)
  exact (roundPackKeepsTheSign F _ _ _ hpos).1

end shifted

end triples

/-! ### QUO of finite operands (R82) -/

section computed
variable {F : Fmt} {a b : Pattern F}

/-- QUO of finite non-zero operands divides their fractions to `P + 2` bits and rounds (R80). -/
theorem exists_quo_eq (ha : FiniteNonzero F a) (hb : FiniteNonzero F b) :
    ∃ k, 2 ^ (F.FW + 2) * (normalize F b).frac ≤ (normalize F a).frac * 2 ^ k ∧
      quo F a b = divideShifted F k (normalize F a) (normalize F b) := by
  have hpow : 2 ^ F.P = 2 * 2 ^ F.FW := pow_succ' 2 F.FW
  obtain ⟨halow, -⟩ := ha.normalize_frac_range
  obtain ⟨-, hbhigh⟩ := hb.normalize_frac_range
  rw [quo_of_finiteNonzero ha hb]
  exact exists_quoTriples_eq (by omega)

theorem correctProduct_quo_of_finiteNonzero (ha : FiniteNonzero F a) (hb : FiniteNonzero F b) :
    CorrectProduct F (sign F a ^^ sign F b) ((val F a / val F b : ℚ) : ℝ) (quo F a b) := by
  obtain ⟨k, hbits, hquo⟩ := exists_quo_eq ha hb
  rw [hquo, ← normalize_sign F a, ← normalize_sign F b, ← tripleVal_normalize F a, ← tripleVal_normalize F b]
  exact correctProduct_divideShifted hb.normalize_frac_pos hbits

theorem sign_quo_of_finiteNonzero (ha : FiniteNonzero F a) (hb : FiniteNonzero F b) :
    sign F (quo F a b) = (sign F a ^^ sign F b) := by
  obtain ⟨k, hbits, hquo⟩ := exists_quo_eq ha hb
  rw [hquo, sign_divideShifted hb.normalize_frac_pos hbits, normalize_sign, normalize_sign]

/-- QUO rounds the exact quotient correctly, that of a zero dividend too (R82). -/
theorem correctProduct_quo (ha : isFinite F a = true) (hb : FiniteNonzero F b) :
    CorrectProduct F (sign F a ^^ sign F b) ((val F a / val F b : ℚ) : ℝ) (quo F a b) := by
  cases hza : isZero F a
  case false => exact correctProduct_quo_of_finiteNonzero ⟨ha, hza⟩ hb
  case true =>
    rw [val_of_isZero hza, zero_div, Rat.cast_zero, quo_zero_finiteNonzero hza hb]
    exact correctProduct_zeroOf F _

/-- The quotient has the XOR sign, a zero one and an overflow included (R82). -/
theorem sign_quo (ha : isFinite F a = true) (hb : FiniteNonzero F b) :
    sign F (quo F a b) = (sign F a ^^ sign F b) := by
  cases hza : isZero F a
  case false => exact sign_quo_of_finiteNonzero ⟨ha, hza⟩ hb
  case true => rw [quo_zero_finiteNonzero hza hb, sign_zeroOf]

/-- QUO gives every entry of the table. -/
theorem quoTable_quo (F : Fmt) (a b : Pattern F) : QuoTable F a b (quo F a b) :=
  ⟨quo_of_nan, quo_infs, quo_inf_finite, quo_finite_inf, quo_zeros, quo_zero_finiteNonzero, quo_finiteNonzero_zero,
    sign_quo_of_finiteNonzero⟩

end computed

/-- `0 / 1` is a zero and `1 / 0` an infinity. -/
theorem quo_not_commutative (F : Fmt) : quo F (posZero F) (one F) ≠ quo F (one F) (posZero F) := by
  have hz : isZero F (posZero F) = true := isZero_zeroOf F false
  intro heq
  rw [quo_zero_finiteNonzero hz (finiteNonzero_one F), quo_finiteNonzero_zero (finiteNonzero_one F) hz] at heq
  have hclass := congrArg (isZero F) heq
  simp at hclass

/-- Settles O44: the sticky bit stands for the remainder, so the exact quotient is rounded once, a zero dividend gives
the zero of the XOR sign, and `0 / 1` and `1 / 0` differ. -/
theorem quoRoundsCorrectly : Obligations.QuoRoundsCorrectly :=
  ⟨fun _ _ _ ha hb => ⟨_, rfl, sign_quo ha hb, correctProduct_quo ha hb⟩,
    fun _ _ _ ha hb => ⟨_, rfl, sign_quo ha hb, correctProduct_quo ha hb⟩,
    fun F => ⟨posZero F, one F, quo_not_commutative F⟩⟩

/-- Settles O45: each command completes with QUO of its operands, which gives every entry of the table. -/
theorem quoFollowsTheTable : Obligations.QuoFollowsTheTable :=
  ⟨fun a b _ => ⟨_, rfl, quoTable_quo .f128 a b⟩, fun a b _ => ⟨_, rfl, quoTable_quo .f256 a b⟩⟩

end Sys2Proof.Machine

/-! PROOFS. Square root (spec/45_sqrt.md R90 to R92).

The idea: the extraction's loop invariant makes `root` the integer root of `v` and `rem` its remainder, so `2 * root`
with "the remainder is non-zero" as its lowest bit stands for the real `2 * sqrt v` in the sense of R53, and RoundPack
rounds the exact root. The radicand stays below the square of the all-ones root of `P + 1` bits. That root is therefore
not attained, rounding never carries out, and the result's exponent is half the operand's. -/

namespace Sys2Proof.Machine

/-! ### The root extraction (R91) -/

section extraction
variable {v n : ℕ} {st : ℕ × ℕ}

/-- Before the first step no bit of `v` has been brought down. -/
theorem rootOf_start (h : v < 4 ^ n) : RootOf v n (0, 0) := by
  simp [RootOf, Nat.div_eq_of_lt h]

theorem sqrtLoop_keeps_RootOf (h : RootOf v n st) : RootOf v 0 (sqrtLoop v n st) := by
  induction n generalizing st with
  | zero => exact h
  | succ n ih => exact ih (sqrtStep_keeps_RootOf h)

theorem rootOf_sqrtRem (h : v < 4 ^ n) : RootOf v 0 (sqrtRem v n) := sqrtLoop_keeps_RootOf (rootOf_start h)

theorem RootOf.eq_radicand (h : RootOf v 0 st) : st.1 * st.1 + st.2 = v := by simpa using h.1

/-- The remainder's bound makes the root the largest one. -/
theorem RootOf.eq_sqrt (h : RootOf v 0 st) : st.1 = Nat.sqrt v := by
  have hv := h.eq_radicand
  obtain ⟨-, hle⟩ := h
  rw [← hv, Nat.sqrt_add_eq st.1 (by omega)]

end extraction

/-- Settles O47: the loop's invariant after its last step says that the pair is the root and its remainder. -/
theorem sqrtRemIsTheIntegerRoot : Obligations.SqrtRemIsTheIntegerRoot := by
  intro v nbits hv
  have hroot := rootOf_sqrtRem hv
  exact ⟨hroot.eq_sqrt, Nat.eq_sub_of_add_eq' hroot.eq_radicand, hroot.2⟩

/-! ### The root with its guard and sticky bits (R53, R90) -/

/-- `m` of R90: the root, its lowest bit the guard bit, over a sticky bit for the remainder. -/
def stickyRoot (st : ℕ × ℕ) : ℕ := if st.2 = 0 then 2 * st.1 else 2 * st.1 + 1

theorem stickyRoot_eq (st : ℕ × ℕ) : (st.1 <<< 1) ||| (if st.2 != 0 then 1 else 0) = stickyRoot st := by
  have hodd : 2 * st.1 ||| 1 = 2 * st.1 + 1 := by rw [or_one_eq, if_pos (Nat.mul_mod_right 2 st.1)]
  have hshift : st.1 <<< 1 = 2 * st.1 := by rw [Nat.shiftLeft_eq, pow_one, Nat.mul_comm]
  rw [hshift]
  by_cases h : st.2 = 0 <;> simp [stickyRoot, h, hodd]

/-- Between two even numbers the odd one stands for every real (R53). -/
theorem stickyOf_odd {y : ℝ} {r : ℕ} (hlo : 2 * (r : ℝ) < y) (hhi : y < 2 * r + 2) : StickyOf y (2 * r + 1) := by
  have hodd (n : ℕ) (hn : n = 2 * r ∨ n = 2 * r + 1) : 2 * r + 1 = n ||| 1 := by
    rw [or_one_eq]
    split_ifs <;> omega
  rcases lt_trichotomy y (2 * r + 1) with hbelow | heq | habove
  · exact .inr ⟨2 * r, by exact_mod_cast hlo, by exact_mod_cast hbelow, hodd _ (.inl rfl)⟩
  · exact .inl (by exact_mod_cast heq.symm)
  · exact .inr ⟨2 * r + 1, by exact_mod_cast habove, by push_cast; linarith, hodd _ (.inr rfl)⟩

section root
variable {v : ℕ} {st : ℕ × ℕ}

/-- The remainder's bit makes twice the root stand for twice the real one (R92 (b)). -/
theorem stickyOf_stickyRoot (h : RootOf v 0 st) : StickyOf (2 * √(v : ℝ)) (stickyRoot st) := by
  have hv := h.eq_radicand
  obtain ⟨root, rem⟩ := st
  obtain ⟨-, hle⟩ := h
  simp only [stickyRoot] at hv hle ⊢
  split_ifs with hexact
  · left
    rw [← hv, hexact]
    push_cast
    rw [add_zero, Real.sqrt_mul_self (Nat.cast_nonneg root)]
  · have hsome := Nat.pos_of_ne_zero hexact
    have hlo : (root : ℝ) < √v := Real.lt_sqrt_of_sq_lt (by exact_mod_cast (by nlinarith : root ^ 2 < v))
    have hhi : √(v : ℝ) < root + 1 :=
      (Real.sqrt_lt' (by positivity)).mpr (by exact_mod_cast (by nlinarith : v < (root + 1) ^ 2))
    exact stickyOf_odd (by linarith) (by linarith)

/-- A root of at least `c` is at least `2 * c` with its sticky bit. -/
theorem le_stickyRoot (h : RootOf v 0 st) {c : ℕ} (hc : c * c ≤ v) : 2 * c ≤ stickyRoot st := by
  have hroot : c ≤ st.1 := h.eq_sqrt ▸ Nat.le_sqrt.mpr hc
  unfold stickyRoot
  split_ifs <;> omega

/-- A root below `c` is below `2 * c` with its sticky bit. -/
theorem stickyRoot_lt (h : RootOf v 0 st) {c : ℕ} (hc : v < c * c) : stickyRoot st < 2 * c := by
  have hroot : st.1 < c := h.eq_sqrt ▸ Nat.sqrt_lt.mpr hc
  unfold stickyRoot
  split_ifs <;> omega

end root

/-! ### The radicand of a triple (R90, R92) -/

/-- The fraction of R90 after the parity step. -/
def evenFrac (x : Triple) : ℕ := if x.exp % 2 = 1 then 2 * x.frac else x.frac

/-- `v` of R90. -/
def radicand (F : Fmt) (x : Triple) : ℕ := evenFrac x * 2 ^ (F.FW + 2)

/-- `m` of R90, for the operand's triple. -/
def rootMagnitude (F : Fmt) (x : Triple) : ℕ := stickyRoot (sqrtRem (radicand F x) (F.P + 1))

/-- The scale of `m` in R90; half the exponent after the parity step is half the exponent, rounded down. -/
def rootScale (F : Fmt) (x : Triple) : ℤ := x.exp / 2 - F.FW - 2

theorem sqrtTriple_eq (F : Fmt) (x : Triple) :
    sqrtTriple F x = roundPack F false (rootMagnitude F x) (rootScale F x) := by
  simp only [sqrtTriple, stickyRoot_eq, beq_iff_eq]
  unfold rootMagnitude rootScale radicand evenFrac
  split_ifs with hodd
  · have hhalf : (x.exp - 1) / 2 = x.exp / 2 := by omega
    rw [hhalf, Nat.shiftLeft_eq, Nat.shiftLeft_eq, pow_one, Nat.mul_comm x.frac 2]
  · rw [Nat.shiftLeft_eq]

/-- The parity step keeps the value (R90). -/
theorem frac_mul_two_pow (x : Triple) (k : ℤ) :
    (x.frac : ℝ) * 2 ^ (x.exp - k) = evenFrac x * 2 ^ (2 * (x.exp / 2) - k) := by
  unfold evenFrac
  split_ifs with hodd
  · have hscale : x.exp - k = 1 + (2 * (x.exp / 2) - k) := by omega
    rw [hscale, zpow_add₀ two_ne_zero, zpow_one]
    push_cast
    ring
  · rw [show x.exp - k = 2 * (x.exp / 2) - k by omega]

/-- The derivation of the scale in R90. -/
theorem sqrt_tripleVal (F : Fmt) {x : Triple} (hs : x.sign = false) :
    √((tripleVal F x : ℚ) : ℝ) = 2 * √(radicand F x : ℝ) * 2 ^ rootScale F x := by
  have hval : ((tripleVal F x : ℚ) : ℝ) = evenFrac x * 2 ^ (2 * (x.exp / 2) - F.FW) := by
    simp [← frac_mul_two_pow, tripleVal, signFactor, hs]
  have hscale : 2 * (x.exp / 2) - F.FW = 2 + ((F.FW + 2 : ℕ) : ℤ) + (rootScale F x + rootScale F x) := by
    unfold rootScale
    push_cast
    ring
  have hsq : √(radicand F x : ℝ) * √(radicand F x : ℝ) = evenFrac x * 2 ^ (F.FW + 2) := by
    rw [Real.mul_self_sqrt (Nat.cast_nonneg _), radicand]
    push_cast
    rfl
  rw [Real.sqrt_eq_iff_mul_self_eq (by rw [hval]; positivity) (by positivity), hval, hscale,
    zpow_add₀ two_ne_zero, zpow_add₀ two_ne_zero, zpow_add₀ two_ne_zero, zpow_natCast, zpow_ofNat]
  linear_combination (-(4 * (2 : ℝ) ^ rootScale F x * 2 ^ rootScale F x)) * hsq

section bounds
variable {F : Fmt} {x : Triple} (hlo : 2 ^ F.FW ≤ x.frac) (hhi : x.frac < 2 ^ F.P)

include hlo in
/-- The radicand reaches the square of the least root of `P + 1` bits. -/
theorem le_radicand : 2 ^ F.P * 2 ^ F.P ≤ radicand F x := by
  have heven : 2 ^ F.FW ≤ evenFrac x := by
    unfold evenFrac
    split_ifs <;> omega
  calc 2 ^ F.P * 2 ^ F.P
    _ = 2 ^ F.FW * 2 ^ (F.FW + 2) := by ring
    _ ≤ radicand F x := Nat.mul_le_mul_right _ heven

include hhi in
/-- The radicand stays below the square of the greatest root of `P + 1` bits, so that root is not attained (R92 (c)). -/
theorem radicand_lt : radicand F x < (2 ^ (F.FW + 2) - 1) * (2 ^ (F.FW + 2) - 1) := by
  have hpow : 2 ^ (F.FW + 2) = 2 * 2 ^ F.P := by ring
  have hpos := Nat.two_pow_pos F.FW
  have hP : 2 ^ F.P = 2 * 2 ^ F.FW := pow_succ' 2 F.FW
  have heven : evenFrac x + 2 ≤ 2 ^ (F.FW + 2) := by
    unfold evenFrac
    split_ifs <;> omega
  unfold radicand
  obtain ⟨d, hd⟩ : ∃ d, 2 ^ (F.FW + 2) = d + 2 := ⟨2 ^ (F.FW + 2) - 2, by omega⟩
  rw [hd] at heven ⊢
  calc evenFrac x * (d + 2)
    _ ≤ d * (d + 2) := Nat.mul_le_mul_right _ (by omega)
    _ < (d + 2 - 1) * (d + 2 - 1) := by rw [Nat.add_sub_assoc one_le_two]; ring_nf; omega

include hhi

theorem rootOf_radicand : RootOf (radicand F x) 0 (sqrtRem (radicand F x) (F.P + 1)) := by
  apply rootOf_sqrtRem
  calc radicand F x
    _ < (2 ^ (F.FW + 2) - 1) * (2 ^ (F.FW + 2) - 1) := radicand_lt hhi
    _ ≤ 2 ^ (F.FW + 2) * 2 ^ (F.FW + 2) := Nat.mul_le_mul (Nat.sub_le _ _) (Nat.sub_le _ _)
    _ = 4 ^ (F.P + 1) := (mul_pow 2 2 (F.FW + 2)).symm

/-- The greatest magnitude has all kept bits ones, guard bit 0 and sticky bit 1 (R92 (c)). -/
theorem rootMagnitude_le : rootMagnitude F x ≤ (2 ^ F.P - 1) * 2 ^ 2 + 1 := by
  have hlt := stickyRoot_lt (rootOf_radicand hhi) (radicand_lt hhi)
  have hpow : 2 ^ (F.FW + 2) = 2 * 2 ^ F.P := by ring
  have hpos := Nat.two_pow_pos F.P
  unfold rootMagnitude
  omega

include hlo

theorem le_rootMagnitude : 2 ^ (F.FW + 2) ≤ rootMagnitude F x := by
  have hle := le_stickyRoot (rootOf_radicand hhi) (le_radicand hlo)
  rwa [← pow_succ'] at hle

/-- `m` has exactly `P + 2` bits (R92 (b)). -/
theorem bitlen_rootMagnitude : bitlen (rootMagnitude F x) = F.P + 2 := by
  have hle := rootMagnitude_le hhi
  have hpow : 2 ^ (F.FW + 2 + 1) = 2 ^ F.P * 2 ^ 2 := by ring
  have hpos := Nat.two_pow_pos F.P
  exact bitlen_eq_iff.mpr ⟨le_rootMagnitude hlo hhi, by omega⟩

theorem two_le_dropCount_rootMagnitude (q : ℤ) : 2 ≤ dropCount F (rootMagnitude F x) q := by
  have hdrop := le_dropCount F (rootMagnitude F x) q
  rw [bitlen_rootMagnitude hlo hhi] at hdrop
  push_cast at hdrop
  omega

/-- RoundPack rounds the exact root, for which the sticky bit stands (R53, R92 (a)). -/
theorem roundsTo_sqrtTriple (hs : x.sign = false) :
    RoundsTo F false √((tripleVal F x : ℚ) : ℝ) (sqrtTriple F x) := by
  have hradicand : 0 < radicand F x := lt_of_lt_of_le (by positivity) (le_radicand hlo)
  have hpos : 0 < 2 * √(radicand F x : ℝ) := mul_pos two_pos (Real.sqrt_pos.mpr (Nat.cast_pos.mpr hradicand))
  rw [sqrt_tripleVal F hs, sqrtTriple_eq]
  exact roundsTo_roundPack hpos (stickyOf_stickyRoot (rootOf_radicand hhi))
    (.inr (two_le_dropCount_rootMagnitude hlo hhi _)) false

end bounds

/-! ### SQRT of a positive finite non-zero operand (R92) -/

section computed
variable {F : Fmt} {a : Pattern F} (ha : FiniteNonzero F a) (hs : sign F a = false)
include ha hs

/-- SQRT rounds the exact real root correctly (R92 (a)). -/
theorem roundsTo_sqrt : RoundsTo F false √((val F a : ℚ) : ℝ) (sqrt F a) := by
  obtain ⟨hlo, hhi⟩ := ha.normalize_frac_range
  rw [sqrt_of_positive ha.1 ha.2 hs, ← tripleVal_normalize F a]
  exact roundsTo_sqrtTriple hlo hhi ((normalize_sign F a).trans hs)

end computed

/-- Settles O48: the sticky bit stands for the remainder, so the exact root is rounded once. -/
theorem sqrtRoundsCorrectly : Obligations.SqrtRoundsCorrectly :=
  ⟨fun _ _ ha hs => ⟨_, rfl, roundsTo_sqrt ha hs⟩, fun _ _ ha hs => ⟨_, rfl, roundsTo_sqrt ha hs⟩⟩

/-! ### The root's fields (R92 (c), (e)) -/

theorem FW_lt_BIAS (F : Fmt) : F.FW < F.BIAS := by cases F <;> decide

section fields
variable {F : Fmt} {x : Triple} (hlo : 2 ^ F.FW ≤ x.frac) (hhi : x.frac < 2 ^ F.P)
include hlo hhi

/-- The leading bit of `m` is at half the exponent. -/
theorem leadExponent_rootMagnitude : leadExponent (rootMagnitude F x) (rootScale F x) = x.exp / 2 := by
  rw [leadExponent, bitlen_rootMagnitude hlo hhi]
  unfold rootScale
  push_cast
  ring

variable (hmin : F.EMIN ≤ x.exp / 2)
include hmin

/-- Rounding the root to `P` bits never carries out (R92 (c)). -/
theorem roundedMagnitude_rootMagnitude :
    2 ^ F.FW ≤ roundedMagnitude F (rootMagnitude F x) (rootScale F x) ∧
      roundedMagnitude F (rootMagnitude F x) (rootScale F x) < 2 ^ F.P := by
  have hlead := leadExponent_rootMagnitude hlo hhi
  have hlen := bitlen_rootMagnitude hlo hhi
  have hdrop : dropCount F (rootMagnitude F x) (rootScale F x) = (2 : ℕ) := by
    rw [dropCount_of_normal (hmin.trans_eq hlead.symm), hlen]
    push_cast
    ring
  have hrne : roundedMagnitude F (rootMagnitude F x) (rootScale F x) = rne (rootMagnitude F x) 2 := by
    rw [roundedMagnitude_of_pos (by omega), hdrop, Int.toNat_natCast]
  have hgreatest : rne ((2 ^ F.P - 1) * 2 ^ 2 + 1) 2 = 2 ^ F.P - 1 := by
    rw [rne_cases _ 1 2 one_le_two (by norm_num), if_pos (by norm_num)]
  obtain ⟨-, -, hmono⟩ := rneIsNearestEven (rootMagnitude F x) 2 one_le_two
  have hle : roundedMagnitude F (rootMagnitude F x) (rootScale F x) ≤ 2 ^ F.P - 1 :=
    hrne ▸ (hmono _ (rootMagnitude_le hhi)).trans_eq hgreatest
  have hpos := Nat.two_pow_pos F.P
  have hlenr := (roundedMagnitude_of_normal (ne_zero_of_bitlen hlen (Nat.succ_pos _))
    (hmin.trans_eq hlead.symm)).resolve_right (by omega)
  exact bitlen_eq_iff.mp hlenr

variable (hmax : x.exp / 2 ≤ F.EMAX)
include hmax

/-- The root is packed as a normal pattern of half the exponent. -/
theorem exists_sqrtTriple_eq_pack :
    ∃ fr < 2 ^ F.FW, sqrtTriple F x = pack F false (x.exp / 2 + F.BIAS).toNat fr := by
  have hlead := leadExponent_rootMagnitude hlo hhi
  obtain ⟨hrlo, hrhi⟩ := roundedMagnitude_rootMagnitude hlo hhi hmin
  have hP : 2 ^ F.P = 2 * 2 ^ F.FW := pow_succ' 2 F.FW
  refine ⟨roundedMagnitude F (rootMagnitude F x) (rootScale F x) - 2 ^ F.FW, by omega, ?_⟩
  rw [sqrtTriple_eq, roundPack_of_normal (hmin.trans_eq hlead.symm), hlead, packNormal_of_lt hrhi, if_neg hmax.not_gt]

end fields

/-- Half the exponent of a finite value is far inside the normal range (R92 (c)). -/
theorem FiniteNonzero.half_exp_range {F : Fmt} {a : Pattern F} (ha : FiniteNonzero F a) :
    F.EMIN ≤ (normalize F a).exp / 2 ∧ (normalize F a).exp / 2 ≤ F.EMAX := by
  have hrange := ha.normalize_exp_range
  have hbias := FW_lt_BIAS F
  unfold Fmt.EMIN Fmt.EMAX at hrange ⊢
  omega

/-- Settles O49: the root is packed with half the exponent, which is inside the normal range. -/
theorem sqrtResultIsNormal : Obligations.SqrtResultIsNormal := by
  intro F a ha hs
  obtain ⟨hlo, hhi⟩ := ha.normalize_frac_range
  obtain ⟨hmin, hmax⟩ := ha.half_exp_range
  obtain ⟨fr, hfr, hpack⟩ := exists_sqrtTriple_eq_pack hlo hhi hmin hmax
  obtain ⟨hpos, hall, hexp⟩ := expField_range hmin hmax.not_gt
  rw [sqrt_of_positive ha.1 ha.2 hs, hpack, isNormal_iff, bexp_pack F false hall.le hfr, sign_pack F false hall.le hfr]
  exact ⟨by omega, rfl, by omega⟩

/-! ### The corner cases (R90) -/

section special
variable {F : Fmt} {a : Pattern F}

/-- SQRT hands a zero on with its sign. -/
theorem sqrt_of_zero (h : isZero F a = true) : sqrt F a = a := by
  simp [sqrt, isNaN_false_of_isFinite (isFinite_of_isZero h), h]

/-- A set sign on anything but a zero gives `QNAN`, on a NaN too. -/
theorem sqrt_of_negative (hs : sign F a = true) (hz : isZero F a = false) : sqrt F a = qnan F := by
  simp [sqrt, hs, hz]

theorem sqrt_of_inf (h : isInf F a = true) (hs : sign F a = false) : sqrt F a = a := by
  simp [sqrt, isNaN_false_of_isInf h, isZero_false_of_isInf h, hs, h]

theorem sqrtTable_sqrt (F : Fmt) (a : Pattern F) : SqrtTable F a (sqrt F a) :=
  ⟨sqrt_of_nan, sqrt_of_zero, sqrt_of_negative, sqrt_of_inf⟩

end special

/-- Settles O50: each command completes with SQRT of its operand, which gives every corner case. -/
theorem sqrtFollowsTheCornerCases : Obligations.SqrtFollowsTheCornerCases :=
  ⟨fun a _ => ⟨_, rfl, sqrtTable_sqrt .f128 a⟩, fun a _ => ⟨_, rfl, sqrtTable_sqrt .f256 a⟩⟩

end Sys2Proof.Machine

/-! PROOFS. Fused multiply-add (spec/46_fma.md R100 to R103).

The idea: R100 widens the product and the addend to two terms of one bit length without losing a bit, so each term has
the value of what it came from. As in ADD, the number of guard bits is not observable; with as many of them as the
alignment shifts, the fused sum is one rounding of the exact sum of the two terms. A special operand leads to MUL and
then ADD, so each row of the table is a cell of the table of MUL followed by a cell of the table of ADD. -/

namespace Sys2Proof.Machine

/-! ### The terms of the fused sum are exact (R100 steps (2) and (3)) -/

/-- The value of a term, `(-1)^sign * mag * 2^scale`. -/
def Term.value (t : Term) : ℚ := signFactor t.sign * magVal t.mag t.scale

section terms
variable {F : Fmt} {x y z : Triple}

/-- Zero bits appended to a magnitude and taken back from its scale change nothing. -/
theorem magVal_shiftLeft (m k : ℕ) (q : ℤ) : magVal (m <<< k) (q - k) = magVal m q := by
  rw [magVal, magVal, Nat.shiftLeft_eq, zpow_sub₀ two_ne_zero, zpow_natCast]
  push_cast
  field_simp

theorem tripleVal_eq_magVal (F : Fmt) (t : Triple) :
    tripleVal F t = signFactor t.sign * magVal t.frac (t.exp - F.FW) := mul_assoc _ _ _

theorem value_productTerm (F : Fmt) (x y : Triple) :
    (productTerm F x y).value = tripleVal F x * tripleVal F y := by
  rw [tripleVal_mul, ← magVal]
  dsimp only [productTerm]
  split_ifs
  · exact congrArg _ (magVal_shiftLeft _ 1 _)
  · rfl

theorem value_addendTerm (F : Fmt) (z : Triple) : (addendTerm F z).value = tripleVal F z := by
  rw [tripleVal_eq_magVal]
  exact congrArg _ (magVal_shiftLeft _ _ _)

theorem value_orderTerms (p z : Term) : (orderTerms p z).1.value + (orderTerms p z).2.value = p.value + z.value := by
  rcases orderTerms_cases p z with h | h <;> rw [h]
  exact add_comm _ _

/-- Both terms of the ordered sum have `2P` bits (R101 (a)). -/
theorem bitlen_orderTerms (hx : bitlen x.frac = F.P) (hy : bitlen y.frac = F.P) (hz : bitlen z.frac = F.P) :
    bitlen (orderTerms (productTerm F x y) (addendTerm F z)).1.mag = 2 * F.P ∧
      bitlen (orderTerms (productTerm F x y) (addendTerm F z)).2.mag = 2 * F.P := by
  have hproduct := bitlen_productTerm F hx hy
  have haddend := bitlen_addendTerm F hz
  rcases orderTerms_cases (productTerm F x y) (addendTerm F z) with h | h <;> rw [h]
  · exact ⟨hproduct, haddend⟩
  · exact ⟨haddend, hproduct⟩

end terms

/-! ### The fused sum without lost bits (R102) -/

section fused
variable {F : Fmt}

/-- The rounded sum with three guard bits is the rounding of the exact sum, in units of the smaller magnitude. -/
theorem roundSum_guardedSum_eq_exact {bs ss : Bool} {b s d : ℕ} (hb : F.P ≤ bitlen b) (hs : s < 2 * b) (q : ℤ) :
    roundSum F (guardedSum 3 bs b ss s d) (q - 3) = roundSum F (signed bs b * 2 ^ d + signed ss s) (q - d) := by
  have hexact : guardedSum d bs b ss s d = signed bs b * 2 ^ d + signed ss s := by
    rw [guardedSum, shrcompress_shiftLeft le_rfl, Nat.sub_self, Nat.shiftLeft_zero, signed_shiftLeft]
  have hscale : q - (d + 3 : ℕ) + (3 : ℕ) = q - d := by push_cast; ring
  rw [← roundSum_guardedSum hb hs (Nat.le_add_left 3 d), guardedSum_of_le le_rfl, hexact, roundSum_mul_two_pow, hscale]

theorem signed_cast (s : Bool) (m : ℕ) : ((signed s m : ℤ) : ℚ) = signFactor s * m := by
  cases s <;> simp [signed, signFactor]

/-- The sum of two terms in units of the one of smaller scale. -/
theorem value_add_value {big small : Term} (h : small.scale ≤ big.scale) :
    big.value + small.value =
      ((signed big.sign big.mag * 2 ^ (big.scale - small.scale).toNat + signed small.sign small.mag : ℤ) : ℚ) *
        2 ^ small.scale := by
  obtain ⟨d, hd⟩ : ∃ d : ℕ, big.scale = d + small.scale := ⟨(big.scale - small.scale).toNat, by omega⟩
  rw [Term.value, Term.value, magVal, magVal, hd, add_sub_cancel_right, Int.toNat_natCast, zpow_add₀ two_ne_zero,
    zpow_natCast]
  push_cast [signed_cast]
  ring

/-- Steps (5) to (9) of R100 round the exact sum of the two terms once. -/
theorem correctSum_fuseTerms {big small : Term} (hscale : small.scale ≤ big.scale)
    (hmag : small.scale = big.scale → small.mag ≤ big.mag) (hlen : F.P ≤ bitlen big.mag)
    (hsize : small.mag < 2 * big.mag) :
    CorrectSum F ((big.value + small.value : ℚ) : ℝ) (fuseTerms F Config.guardBits big small) := by
  have hunit : big.scale - (big.scale - small.scale).toNat = small.scale := by omega
  have hsum := roundSum_guardedSum_eq_exact (bs := big.sign) (ss := small.sign)
    (d := (big.scale - small.scale).toNat) hlen hsize big.scale
  rw [hunit] at hsum
  have hfused := (fuseTerms_eq_roundSum F (g := Config.guardBits) (by decide) hscale hmag hsize).trans hsum
  rw [hfused, value_add_value hscale]
  push_cast
  exact_mod_cast correctSum_roundSum F _ small.scale

/-- Steps (2) to (9) of R100 on normalized triples. -/
theorem correctSum_fmaTriples {x y z : Triple} (hx : bitlen x.frac = F.P) (hy : bitlen y.frac = F.P)
    (hz : bitlen z.frac = F.P) :
    CorrectSum F ((tripleVal F x * tripleVal F y + tripleVal F z : ℚ) : ℝ)
      (fmaTriples F Config.guardBits x y z) := by
  obtain ⟨hscale, hmag⟩ := orderTerms_le (productTerm F x y) (addendTerm F z)
  obtain ⟨hbig, hsmall⟩ := bitlen_orderTerms hx hy hz
  have hbits : 0 < 2 * F.P := Nat.mul_pos two_pos (Nat.succ_pos _)
  have hsize := lt_two_mul_of_bitlen_eq (hsmall.trans hbig.symm) (ne_zero_of_bitlen hbig hbits)
  rw [← value_productTerm, ← value_addendTerm, ← value_orderTerms]
  exact correctSum_fuseTerms hscale hmag (by omega) hsize

/-- FMA rounds the exact `x*y + z` correctly (R102). -/
theorem correctSum_fma {x y z : Pattern F} (hx : FiniteNonzero F x) (hy : FiniteNonzero F y)
    (hz : FiniteNonzero F z) : CorrectSum F ((val F x * val F y + val F z : ℚ) : ℝ) (fma F x y z) := by
  rw [fma, fmaWith_of_finite hx.1 hx.2 hy.1 hy.2 _ hz.1 hz.2, ← tripleVal_normalize F x, ← tripleVal_normalize F y,
    ← tripleVal_normalize F z]
  exact correctSum_fmaTriples (normalize_bitlen (Bool.eq_false_iff.mp hx.2))
    (normalize_bitlen (Bool.eq_false_iff.mp hy.2)) (normalize_bitlen (Bool.eq_false_iff.mp hz.2))

end fused

/-- Settles O51: the two terms are exact, and their guarded sum is rounded like their exact sum. -/
theorem fmaRoundsOnce : Obligations.FmaRoundsOnce :=
  ⟨fun _ _ _ _ hx hy hz => ⟨_, rfl, correctSum_fma hx hy hz⟩,
    fun _ _ _ _ hx hy hz => ⟨_, rfl, correctSum_fma hx hy hz⟩⟩

/-! ### FMA with a special operand (R103) -/

section special
variable {F : Fmt} {x y z : Pattern F}

/-- A special operand leads to MUL and then ADD, but for finite factors with an infinite addend. -/
theorem fma_fallback (hspecial : isSpecial F x = true ∨ isSpecial F y = true ∨ isSpecial F z = true)
    (hkept : ¬(isFinite F x = true ∧ isFinite F y = true ∧ isInf F z = true)) :
    fma F x y z = add F (mul F x y) z := by
  have htest : (isSpecial F x || (isSpecial F y || isSpecial F z)) = true := by
    simpa only [Bool.or_eq_true] using hspecial
  have hcase : ¬(isInf F z && (isFinite F x && isFinite F y)) = true := by
    rw [Bool.and_eq_true, Bool.and_eq_true]
    exact fun ⟨hz, hx, hy⟩ => hkept ⟨hx, hy, hz⟩
  rw [fma, fmaWith, if_pos htest, if_neg hcase]

theorem isSpecial_of_isInf (h : isInf F x = true) : isSpecial F x = true := by simp [isSpecial, h]

theorem isSpecial_of_isZero (h : isZero F x = true) : isSpecial F x = true := by simp [isSpecial, h]

/-- An infinite factor leads to the fallback, whatever the addend. -/
theorem fma_inf_factor (h : isInf F x = true ∨ isInf F y = true) : fma F x y z = add F (mul F x y) z := by
  rcases h with h | h
  · exact fma_fallback (.inl (isSpecial_of_isInf h)) fun ⟨hx, _⟩ => by simp [isFinite_false_of_isInf h] at hx
  · exact fma_fallback (.inr (.inl (isSpecial_of_isInf h))) fun ⟨_, hy, _⟩ => by
      simp [isFinite_false_of_isInf h] at hy

/-- A zero factor leads to the fallback, unless the addend is infinite. -/
theorem fma_zero_factor (h : isZero F x = true ∨ isZero F y = true) (hz : isFinite F z = true) :
    fma F x y z = add F (mul F x y) z :=
  fma_fallback (h.imp isSpecial_of_isZero fun hy => .inl (isSpecial_of_isZero hy)) fun ⟨_, _, hinf⟩ => by
    simp [isInf_false_of_isFinite hz] at hinf

theorem fma_zero_inf (h : isZero F x = true ∧ isInf F y = true ∨ isInf F x = true ∧ isZero F y = true) :
    fma F x y z = qnan F := by
  have hproduct : mul F x y = qnan F := by
    rcases h with ⟨hx, hy⟩ | ⟨hx, hy⟩
    · exact mul_zero_inf hx hy
    · exact mul_inf_zero hx hy
  rw [fma_inf_factor (h.elim (fun h => .inr h.2) fun h => .inl h.1), hproduct]
  exact add_of_nan (.inl (isNaN_qnan F))

/-- A pattern that is no NaN, no infinity and no zero is finite and non-zero (R44). -/
theorem isInf_or_finiteNonzero (hnan : isNaN F x = false) (hzero : isZero F x = false) :
    isInf F x = true ∨ FiniteNonzero F x :=
  ((isNaN_or_isInf_or_isFinite F x).resolve_left (by simp [hnan])).imp_right fun hfinite => ⟨hfinite, hzero⟩

/-- An infinity times anything but a zero or a NaN is an infinity (R74). -/
theorem mul_inf_nonzero (hx : isInf F x = true) (hnan : isNaN F y = false) (hzero : isZero F y = false) :
    mul F x y = infOf F (sign F x ^^ sign F y) :=
  (isInf_or_finiteNonzero hnan hzero).elim (mul_infs hx) (mul_inf_finiteNonzero hx)

/-- ADD of an infinity and anything but a NaN (R65). -/
theorem add_infOf (s : Bool) (hz : isNaN F z = false) :
    add F (infOf F s) z = if isInf F z && sign F z != s then qnan F else infOf F s := by
  have hinf := isInf_infOf F s
  have hsign := sign_infOf F s
  rcases (isNaN_or_isInf_or_isFinite F z).resolve_left (by simp [hz]) with hzinf | hfinite
  · by_cases h : sign F z = s
    · rw [add_like_infs hinf hzinf (hsign.trans h.symm)]
      simp [h]
    · rw [add_opposite_infs hinf hzinf (by rw [hsign]; exact Ne.symm h)]
      simp [hzinf, h]
  · rw [add_inf_finite hinf hfinite]
    simp [isInf_false_of_isFinite hfinite]

theorem fma_inf_nonzero (h : isInf F x = true ∧ isZero F y = false ∨ isInf F y = true ∧ isZero F x = false)
    (hx : isNaN F x = false) (hy : isNaN F y = false) (hz : isNaN F z = false) :
    fma F x y z = if isInf F z && sign F z != (sign F x ^^ sign F y) then qnan F
      else infOf F (sign F x ^^ sign F y) := by
  have hproduct : mul F x y = infOf F (sign F x ^^ sign F y) := by
    rcases h with ⟨hinf, hzero⟩ | ⟨hinf, hzero⟩
    · exact mul_inf_nonzero hinf hy hzero
    · rw [mul_commutes, mul_inf_nonzero hinf hx hzero, Bool.xor_comm]
  rw [fma_inf_factor (h.imp And.left And.left), hproduct, add_infOf _ hz]

section zeroFactor
variable (hx : isFinite F x = true) (hy : isFinite F y = true) (h : isZero F x = true ∨ isZero F y = true)
include hx hy h

/-- A zero factor makes the product a zero (R74). -/
theorem mul_zero_factor : mul F x y = zeroOf F (sign F x ^^ sign F y) :=
  h.elim (mul_zero_finite · hy) (mul_finite_zero hx)

theorem fma_zero_product (hz : FiniteNonzero F z) : fma F x y z = z := by
  rw [fma_zero_factor h hz.1, mul_zero_factor hx hy h, add_zero_left (isZero_zeroOf F _) hz]

theorem fma_zeros (hz : isZero F z = true) : fma F x y z = zeroOf F ((sign F x ^^ sign F y) && sign F z) := by
  rw [fma_zero_factor h (isFinite_of_isZero hz), mul_zero_factor hx hy h, add_zeros (isZero_zeroOf F _) hz,
    sign_zeroOf]

end zeroFactor

/-- The product is not rounded again when a zero is added; one that underflowed to a zero adds as a zero does. -/
theorem fma_zero_addend (hx : FiniteNonzero F x) (hy : FiniteNonzero F y) (hz : isZero F z = true) :
    fma F x y z = if isZero F (mul F x y) then zeroOf F ((sign F x ^^ sign F y) && sign F z) else mul F x y := by
  have hfinite := isFinite_of_isZero hz
  have hnan : isNaN F (mul F x y) = false := by rw [mul_of_finiteNonzero hx hy]; exact isNaN_roundPack _ _ _
  have hsum : fma F x y z = add F (mul F x y) z :=
    fma_fallback (.inr (.inr (isSpecial_of_isZero hz))) fun ⟨_, _, hinf⟩ => by
      simp [isInf_false_of_isFinite hfinite] at hinf
  rw [hsum]
  split_ifs with hzero
  · rw [add_zeros hzero hz, sign_mul_of_finiteNonzero hx hy]
  · rcases isInf_or_finiteNonzero hnan (Bool.eq_false_iff.mpr hzero) with hinf | hnonzero
    · exact add_inf_finite hinf hfinite
    · exact add_zero_right hnonzero hz

/-- FMA gives every row of the table. -/
theorem fmaTable_fma (F : Fmt) (x y z : Pattern F) : FmaTable F x y z (fma F x y z) :=
  ⟨fma_fallback, fma_of_nan, fma_zero_inf, fma_inf_nonzero, fmaWith_infinite_addend _, fma_zero_product, fma_zeros,
    fma_zero_addend⟩

end special

/-- Settles O52: each command completes with FMA of its operands, which gives every row of the table. -/
theorem fmaFollowsTheTable : Obligations.FmaFollowsTheTable :=
  ⟨fun x y z _ => ⟨_, rfl, fmaTable_fma .f128 x y z⟩, fun x y z _ => ⟨_, rfl, fmaTable_fma .f256 x y z⟩⟩

/-! ### The factors may be exchanged (R100) -/

section symmetry
variable {F : Fmt}

theorem productTerm_comm (x y : Triple) : productTerm F x y = productTerm F y x := by
  rw [productTerm, productTerm, Nat.mul_comm, add_comm x.exp, Bool.xor_comm]

/-- Past the tests, the factors meet only in the exact product. -/
theorem fmaTriples_comm (g : ℕ) (x y z : Triple) : fmaTriples F g x y z = fmaTriples F g y x z := by
  rw [fmaTriples, fmaTriples, productTerm_comm]

theorem fma_commutes (x y z : Pattern F) : fma F x y z = fma F y x z := by
  rw [fma, fma, fmaWith, fmaWith, Bool.or_left_comm, Bool.and_comm (isFinite F x), mul_commutes, fmaTriples_comm]

end symmetry

/-- Settles O54: every test of R100 and both of its computations treat the factors alike. -/
theorem fmaIsSymmetricInItsFactors : Obligations.FmaIsSymmetricInItsFactors := fun _ => fma_commutes

/-! ### One rounding is not two (R102) -/

/-- The pattern of `(-1)^s * (1 + n * 2^-FW)`. -/
def nearOne (F : Fmt) (s : Bool) (n : ℕ) : Pattern F := pack F s F.BIAS n

section rounding
variable (F : Fmt)

/-- The square of `1 + 2^-FW` loses its last bit to the rounding of MUL, and the rest cancels (vector F3). -/
theorem isZero_add_mul_nearOne :
    isZero F (add F (mul F (nearOne F false 1) (nearOne F false 1)) (nearOne F true 2)) = true := by
  cases F <;> decide +kernel

/-- The bit that MUL rounds off is what FMA returns. -/
theorem isZero_fma_nearOne :
    isZero F (fma F (nearOne F false 1) (nearOne F false 1) (nearOne F true 2)) = false := by
  cases F <;> decide +kernel

end rounding

/-- Settles O53: on the operands of vector F3 MUL followed by ADD gives a zero and FMA does not. -/
theorem fmaIsNotMulThenAdd : Obligations.FmaIsNotMulThenAdd := by
  refine fun F => ⟨nearOne F false 1, nearOne F false 1, nearOne F true 2, fun heq => ?_⟩
  have hfused := isZero_fma_nearOne F
  rw [heq, isZero_add_mul_nearOne] at hfused
  cases hfused

end Sys2Proof.Machine

/-! PROOFS. Completion, reset and the held offer (spec/60_exceptions.md R110, spec/70_reset_and_hazards.md R130 to
R136).

The idea: the only trace of the past that a reset edge leaves is `taken`, and no edge reads `taken`. So putting words in
front of it commutes with every edge and every run, and two units in reset differ by just such words. -/

namespace Sys2Proof.Machine

/-- Settles O5: the word is the instruction's response, which no state enters. -/
theorem everyCommandCompletesAlike : Obligations.EveryCommandCompletesAlike :=
  fun i => ⟨responseOf i, exec_eq_accept i⟩

/-! ### The reset edge and the time before the first one -/

section reset
variable {depth : Nat} {e : Edge} {s : State}

/-- No response is offered at a reset edge, in any phase (R130). -/
theorem State.rspValid_reset (hrst : e.rst = true) : s.rspValid e = false := by simp [State.rspValid, hrst]

/-- The unit is not ready at a reset edge, in any phase (R130). -/
theorem State.cmdReady_reset (hrst : e.rst = true) : s.cmdReady depth e = false := by simp [State.cmdReady, hrst]

/-- In any phase, an offer means that the edge is no reset edge (R130). -/
theorem State.rst_of_rspValid (hv : s.rspValid e = true) : e.rst = false :=
  Bool.eq_false_iff.mpr fun hrst => by simp [State.rspValid_reset hrst] at hv

/-- Without reset, a unit that has not been reset yet has no edge (R133). -/
theorem clockEdge_beforeFirstReset (hp : s.phase = .beforeFirstReset) (hrst : e.rst = false) :
    clockEdge depth e s = .refused .beforeFirstReset := by
  simp [clockEdge, hp, hrst]

end reset

/-- Settles O11: a reset edge looks neither at the queue nor at the handshakes. -/
theorem resetEdgeEmptiesTheQueue : Obligations.ResetEdgeEmptiesTheQueue :=
  fun _ hrst => ⟨clockEdge_reset hrst, State.rspValid_reset hrst, fun _ => State.cmdReady_reset hrst⟩

/-- Settles O12: the step is an edge without reset of a unit not reset yet. -/
theorem noStepBeforeTheFirstReset : Obligations.NoStepBeforeTheFirstReset :=
  fun s hp hrst => clockEdge_beforeFirstReset (s := s.passEdge) hp hrst

/-! ### An offer that is not taken -/

section held
variable {depth : Nat} {e e' : Edge} {s t : State}

/-- Whatever the edge was, the unit runs after it (R130, R133). -/
theorem clockEdge_phase (h : clockEdge depth e s = .next t) : t.phase = .running := by
  obtain ⟨-, rfl⟩ | ⟨-, hp, ⟨i, w, -, -, -, rfl⟩ | ⟨-, rfl⟩⟩ := clockEdge_cases h
  case inl => rfl
  all_goals simpa using hp

/-- After an edge that leaves an offer untaken, the offer is remembered, and the queue still begins with the offered
word: an Accept only appends behind it (R16, R136 (a)). -/
theorem clockEdge_keeps_offer (h : clockEdge depth e s = .next t) (hv : s.rspValid e = true)
    (hready : e.rspReady = false) :
    s.phase = .running ∧ t.offered = true ∧ ∃ w, s.pending.head? = some w ∧ t.pending.head? = some w := by
  have hd : s.delivers e = false := by simp [State.delivers, hready]
  obtain ⟨hrst, -⟩ | ⟨-, hp, hnext⟩ := clockEdge_cases h
  case inl => exact absurd hrst (by simp [State.rst_of_rspValid hv])
  case inr =>
    obtain ⟨-, w, rest, hq⟩ := State.rspValid_cases hp hv
    obtain ⟨i, v, -, -, -, rfl⟩ | ⟨-, rfl⟩ := hnext
    all_goals exact ⟨hp, by simp [hd, hv], w, by simp [hq], by simp [hd, hq]⟩

/-- An offer that is not taken is made again at the next edge, unless that is a reset edge (R136 (a)). -/
theorem rspValid_after_untaken (h : clockEdge depth e s = .next t) (hv : s.rspValid e = true)
    (hready : e.rspReady = false) (hrst : e'.rst = false) : t.rspValid e' = true := by
  obtain ⟨-, hoff, w, -, hq⟩ := clockEdge_keeps_offer h hv hready
  have hne : t.pending ≠ [] := by intro hnil; simp [hnil] at hq
  simp [State.rspValid_running (clockEdge_phase h), hrst, hoff, hne]

/-- The data of an offer that is not taken stay the same (R136 (a)). -/
theorem rspData_after_untaken (h : clockEdge depth e s = .next t) (hv : s.rspValid e = true)
    (hready : e.rspReady = false) (hrst : e'.rst = false) : t.rspData e' = s.rspData e := by
  obtain ⟨hp, -, w, hs, ht⟩ := clockEdge_keeps_offer h hv hready
  rw [State.rspData_running (clockEdge_phase h), State.rspData_running hp,
    rspValid_after_untaken h hv hready hrst, hv, hs, ht]

end held

/-- Settles O19: the next edge of the schedule is an edge after one that left the offer untaken. -/
theorem offeredResponseIsHeld : Obligations.OfferedResponseIsHeld :=
  fun s _ h hv hready hrst =>
    ⟨rspValid_after_untaken (s := s.passEdge) h hv hready hrst,
      rspData_after_untaken (s := s.passEdge) h hv hready hrst⟩

/-! ### What the host has taken does not matter to the unit -/

/-- The same unit, with the words of `p` taken by the host before all others. -/
def State.takenAfter (p : List Word) (s : State) : State := { s with taken := p ++ s.taken }

/-- The same answer, with the words of `p` taken before all others in its next state. -/
def Answer.takenAfter (p : List Word) : Answer → Answer
  | .next s => .next (s.takenAfter p)
  | .fault r => .fault r
  | .refused r => .refused r

/-- The unit a reset edge leaves when nothing has been taken, with the schedule that follows. -/
def resetWith (inputs : List Edge) : State := { State.reset with inputs := inputs }

section takenAfter
variable {depth k : Nat} {e : Edge} {s t : State} {p : List Word}

/-- An answer that has a next state had one before the words were put in front. -/
theorem Answer.exists_of_takenAfter {a : Answer} (h : a.takenAfter p = .next t) :
    ∃ u, a = .next u ∧ t = u.takenAfter p := by
  cases a with
  | next u => exact ⟨u, rfl, (Host.Outcome.next.inj h).symm⟩
  | fault r => cases h
  | refused r => cases h

/-- The response channel appends to `taken` and does not read it (R17). -/
theorem State.responseChannel_takenAfter (s : State) (e : Edge) :
    (s.takenAfter p).responseChannel e = (s.responseChannel e).takenAfter p := by
  simp only [responseChannel_eq, State.takenAfter, List.append_assoc]
  rfl

/-- The command channel does not touch `taken` (R16). -/
theorem commandChannel_takenAfter (ready : Bool) (e : Edge) (s : State) :
    commandChannel ready e (s.takenAfter p) = (commandChannel ready e s).takenAfter p := by
  unfold commandChannel
  cases e.cmdValid with
  | false => rfl
  | true =>
    cases decode e.cmd with
    | none => rfl
    | some i => cases ready <;> simp only [exec_eq_accept] <;> rfl

/-- No edge reads `taken`: words in front of it stay there, and the unit does the same. -/
theorem clockEdge_takenAfter (depth : Nat) (e : Edge) (s : State) :
    clockEdge depth e (s.takenAfter p) = (clockEdge depth e s).takenAfter p := by
  cases hrst : e.rst with
  | true => rw [clockEdge_reset hrst, clockEdge_reset hrst]; rfl
  | false =>
    cases hp : s.phase with
    | beforeFirstReset =>
      rw [clockEdge_beforeFirstReset hp hrst, clockEdge_beforeFirstReset (s := s.takenAfter p) hp hrst]; rfl
    | running =>
      rw [clockEdge_running hp hrst, clockEdge_running (s := s.takenAfter p) hp hrst,
        State.responseChannel_takenAfter, commandChannel_takenAfter]
      rfl

theorem step_takenAfter (s : State) : step (s.takenAfter p) = Answer.takenAfter p (step s) :=
  clockEdge_takenAfter Config.DEPTH s.nextEdge s.passEdge

/-- On any machine, a run whose first step has a next state goes on from there. -/
theorem coreRun_succ_of_step {M : Host.Core} {s t : M.State} (h : M.step s = .next t) (k : Nat) :
    M.run (k + 1) s = M.run k t := by
  simp [Host.Core.run, h]

/-- The same of XFPU, whose step is `step`. -/
theorem run_succ_of_step (h : step s = .next t) (k : Nat) : Host.Core.run core (k + 1) s = Host.Core.run core k t :=
  coreRun_succ_of_step (M := core) h k

/-- Putting words in front of `taken` commutes with a run: every state it reaches has them in front. -/
theorem run_takenAfter (h : Host.Core.run core k s = .next t) :
    Host.Core.run core k (s.takenAfter p) = .next (t.takenAfter p) := by
  induction k generalizing s with
  | zero => cases h; rfl
  | succ k ih =>
    obtain ⟨u, hs, hrun⟩ := run_succ_next h
    have hs' : step (s.takenAfter p) = .next (u.takenAfter p) := by rw [step_takenAfter, hs]; rfl
    rw [run_succ_of_step hs', ih hrun]

/-- A run of the unit with words in front of `taken` is a run of the unit without them. -/
theorem exists_run_of_takenAfter (h : Host.Core.run core k (s.takenAfter p) = .next t) :
    ∃ u, Host.Core.run core k s = .next u ∧ t = u.takenAfter p := by
  induction k generalizing s with
  | zero => cases h; exact ⟨s, rfl, rfl⟩
  | succ k ih =>
    obtain ⟨v, hv, hrun⟩ := run_succ_next h
    obtain ⟨u, hs, rfl⟩ := Answer.exists_of_takenAfter ((step_takenAfter s).symm.trans hv)
    rw [run_succ_of_step hs]
    exact ih hrun

/-- A reset edge leaves the empty unit, with what the host has taken in front (R130, R131). -/
theorem step_reset (hrst : s.nextEdge.rst = true) :
    step s = .next ((resetWith s.inputs.tail).takenAfter s.taken) := by
  rw [step_eq, clockEdge_reset hrst]
  simp [State.takenAfter, resetWith, State.resetEdge, State.passEdge, State.reset]

end takenAfter

/-- Settles O16: after the reset edge both runs are that of one empty unit, with different words in front of `taken`;
`l` is what that unit delivers. -/
theorem resetForgetsThePast : Obligations.ResetForgetsThePast := by
  intro s s' t k hin hrst h
  have hrst' : s'.nextEdge.rst = true := by rw [State.nextEdge, ← hin]; exact hrst
  rw [run_succ_of_step (step_reset hrst)] at h
  obtain ⟨u, hu, rfl⟩ := exists_run_of_takenAfter h
  refine ⟨u.takenAfter s'.taken, u.taken, ?_, rfl, rfl, rfl, rfl⟩
  rw [run_succ_of_step (step_reset hrst'), ← hin]
  exact run_takenAfter hu

end Sys2Proof.Machine

/-! PROOFS. Progress (spec/70_reset_and_hazards.md R138).

The idea: in an endless run that makes progress, a response that is queued is offered, an offer stays until the host is
ready, and so a non-empty queue always comes to a Deliver. Every Deliver lengthens `taken` by one word, while `taken`
and the queue together only grow at their end; hence `taken` catches up with what was queued at any moment. The same
Deliver makes room in a full queue for a command that waits. -/

namespace Sys2Proof.Machine

/-! ### Endless inputs, one edge at a time -/

section runOn
variable {env : Nat → Edge} {s t u : State} {n m : Nat}

theorem runOn_succ (h : runOn env s n = .next t) : runOn env s (n + 1) = clockEdge Config.DEPTH (env n) t := by
  simp [runOn, h]

/-- What every edge of the input keeps holds from any moment of the run on. -/
theorem runOn_keeps {P : State → Prop} (hn : runOn env s n = .next t) (hnm : n ≤ m) (hm : runOn env s m = .next u)
    (hkeep : ∀ k v w, P v → clockEdge Config.DEPTH (env k) v = .next w → P w) (ht : P t) : P u := by
  induction m, hnm using Nat.le_induction generalizing u with
  | base => rw [hn] at hm; cases hm; exact ht
  | succ m _ ih =>
    cases hv : runOn env s m with
    | next v => exact hkeep m v u (ih hv) ((runOn_succ hv).symm.trans hm)
    | fault r => simp [runOn, hv] at hm
    | refused r => simp [runOn, hv] at hm

/-- No run takes back what the host has taken (R17, R131). -/
theorem runOn_taken_prefix (hn : runOn env s n = .next t) (hnm : n ≤ m) (hm : runOn env s m = .next u) :
    t.taken <+: u.taken :=
  runOn_keeps (P := fun v => t.taken <+: v.taken) hn hnm hm
    (fun _ _ _ hv hedge => hv.trans (clockEdge_taken_prefix hedge)) List.prefix_rfl

end runOn

/-- What a Deliver does: it moves the head of the queue to what the host has taken, and an edge without an Accept leaves
the rest of the queue (R17). -/
theorem clockEdge_delivers {depth : Nat} {e : Edge} {s t : State} (h : clockEdge depth e s = .next t)
    (hp : s.phase = .running) (hd : s.delivers e = true) :
    ∃ w rest, s.pending = w :: rest ∧ t.taken = s.taken ++ [w] ∧ (s.accepts depth e = false → t.pending = rest) := by
  obtain ⟨hv, -, w, rest, hq⟩ := State.delivers_cases hp hd
  refine ⟨w, rest, hq, ?_⟩
  obtain ⟨hrst, -⟩ | ⟨-, -, ⟨i, v, hacc, -, -, rfl⟩ | ⟨-, rfl⟩⟩ := clockEdge_cases h
  case inl => exact absurd hrst (by simp [State.rst_of_rspValid hv])
  case inr.inl => exact ⟨by simp [hd, hq], fun hno => absurd hacc (by simp [hno])⟩
  case inr.inr => exact ⟨by simp [hd, hq], fun _ => by simp [hd, hq]⟩

/-! ### Runs in which the response channel makes progress -/

/-- A run that never stops, of a running unit without reset, in which queued responses are offered and offered
responses are taken in the end (R138 (a), (c)). -/
structure Delivering (env : Nat → Edge) (s : State) : Prop where
  running : s.phase = .running
  noReset : ∀ n, (env n).rst = false
  endless : Endless env s
  offers : OffersEventually env s
  takes : TakesEventually env s

namespace Delivering
variable {env : Nat → Edge} {s t u : State} {n m : Nat}

/-- The unit is running throughout. -/
theorem phase_eq (h : Delivering env s) (hn : runOn env s n = .next t) : t.phase = .running :=
  runOn_keeps (P := fun v => v.phase = .running) rfl n.zero_le hn (fun _ _ _ _ hedge => clockEdge_phase hedge) h.running

/-- What was taken and queued at a moment stays at the front of what is taken and queued (R25). -/
theorem total_prefix (h : Delivering env s) (hn : runOn env s n = .next t) (hnm : n ≤ m)
    (hm : runOn env s m = .next u) : t.taken ++ t.pending <+: u.taken ++ u.pending := by
  refine runOn_keeps (P := fun v => t.taken ++ t.pending <+: v.taken ++ v.pending) hn hnm hm ?_ List.prefix_rfl
  intro k v w hv hedge
  rw [clockEdge_conserves (h.noReset k) hedge]
  exact hv.trans (List.prefix_append _ _)

/-- An offer waits for the host: it is taken at the latest when the host is next ready (R136 (a)). -/
theorem exists_delivers_of_rspReady (h : Delivering env s) (hn : runOn env s n = .next t)
    (hv : t.rspValid (env n) = true) {d : Nat} (hready : (env (n + d)).rspReady = true) :
    ∃ m u, n ≤ m ∧ runOn env s m = .next u ∧ u.delivers (env m) = true := by
  induction d generalizing n t with
  | zero => exact ⟨n, t, le_rfl, hn, Bool.and_eq_true_iff.mpr ⟨hv, hready⟩⟩
  | succ d ih =>
    cases hnow : (env n).rspReady with
    | true => exact ⟨n, t, le_rfl, hn, Bool.and_eq_true_iff.mpr ⟨hv, hnow⟩⟩
    | false =>
      obtain ⟨t', hn'⟩ := h.endless (n + 1)
      have hv' : t'.rspValid (env (n + 1)) = true :=
        rspValid_after_untaken ((runOn_succ hn).symm.trans hn') hv hnow (h.noReset _)
      obtain ⟨m, u, hm, hrun, hd⟩ := ih hn' hv' (by rwa [Nat.add_right_comm])
      exact ⟨m, u, Nat.le_of_succ_le hm, hrun, hd⟩

/-- A non-empty queue comes to a Deliver: it is offered, and the offer is taken (R138 (a), (c)). -/
theorem exists_delivers (h : Delivering env s) (hn : runOn env s n = .next t) (hne : t.pending ≠ []) :
    ∃ m u, n ≤ m ∧ runOn env s m = .next u ∧ u.delivers (env m) = true := by
  obtain ⟨m, u, hnm, hm, hv⟩ := h.offers n t hn hne
  obtain ⟨k, hmk, hready⟩ := h.takes m u hm hv
  obtain ⟨d, rfl⟩ := Nat.exists_eq_add_of_le hmk
  obtain ⟨m', u', hm', hrun, hd⟩ := h.exists_delivers_of_rspReady hm hv hready
  exact ⟨m', u', hnm.trans hm', hrun, hd⟩

/-- A Deliver is followed by a state in which the host has taken one word more. -/
theorem exists_taken_succ (h : Delivering env s) (hn : runOn env s n = .next t) (hd : t.delivers (env n) = true) :
    ∃ u, runOn env s (n + 1) = .next u ∧ u.taken.length = t.taken.length + 1 := by
  obtain ⟨u, hu⟩ := h.endless (n + 1)
  obtain ⟨w, rest, -, htaken, -⟩ := clockEdge_delivers ((runOn_succ hn).symm.trans hu) (h.phase_eq hn) hd
  exact ⟨u, hu, by simp [htaken]⟩

/-- As many responses are taken in the end as were taken and queued at a moment, by one Deliver after another. -/
theorem exists_taken_length (h : Delivering env s) (hn : runOn env s n = .next t) {k : Nat}
    (hk : k ≤ (t.taken ++ t.pending).length) : ∃ m u, n ≤ m ∧ runOn env s m = .next u ∧ k ≤ u.taken.length := by
  induction k with
  | zero => exact ⟨n, t, le_rfl, hn, Nat.zero_le _⟩
  | succ k ih =>
    obtain ⟨m, u, hnm, hm, hlen⟩ := ih (Nat.le_of_succ_le hk)
    cases hq : u.pending with
    | nil =>
      have htotal : (t.taken ++ t.pending).length ≤ u.taken.length := by
        simpa [hq] using (h.total_prefix hn hnm hm).length_le
      exact ⟨m, u, hnm, hm, hk.trans htotal⟩
    | cons w rest =>
      obtain ⟨m', v, hmm', hm', hd⟩ := h.exists_delivers hm (by simp [hq])
      obtain ⟨v', hv', hlen'⟩ := h.exists_taken_succ hm' hd
      have hle : u.taken.length ≤ v.taken.length := (runOn_taken_prefix hm hmm' hm').length_le
      exact ⟨m' + 1, v', by omega, hv', by omega⟩

/-- A command is accepted or the queue has room in the end: a full queue comes to a Deliver, which makes room unless a
command is accepted at the same edge (R14, R16). -/
theorem exists_accepts_or_room (h : Delivering env s) (hinv : Inv s) (hn : runOn env s n = .next t) :
    ∃ m u, n ≤ m ∧ runOn env s m = .next u ∧
      (u.accepts Config.DEPTH (env m) = true ∨ u.pending.length < Config.DEPTH) := by
  by_cases hroom : t.pending.length < Config.DEPTH
  · exact ⟨n, t, le_rfl, hn, .inr hroom⟩
  · have hne : t.pending ≠ [] := List.ne_nil_of_length_pos (DEPTH_pos.trans_le (Nat.le_of_not_lt hroom))
    obtain ⟨m, u, hnm, hm, hd⟩ := h.exists_delivers hn hne
    cases hacc : u.accepts Config.DEPTH (env m) with
    | true => exact ⟨m, u, hnm, hm, .inl hacc⟩
    | false =>
      have hu : Inv u := runOn_keeps rfl m.zero_le hm (fun _ _ _ => Inv.clockEdge_next) hinv
      have hp : u.phase = .running := h.phase_eq hm
      obtain ⟨hlen, -⟩ := hu hp
      obtain ⟨v, hv⟩ := h.endless (m + 1)
      obtain ⟨w, rest, hq, -, hrest⟩ := clockEdge_delivers ((runOn_succ hm).symm.trans hv) hp hd
      refine ⟨m + 1, v, Nat.le_succ_of_le hnm, hv, .inr ?_⟩
      rw [hrest hacc]
      simpa [hq] using hlen

end Delivering

/-- Settles O22: what is taken catches up in length with what was taken and queued, and both begin the same list. -/
theorem everyQueuedResponseIsTaken : Obligations.EveryQueuedResponseIsTaken := by
  intro env s hp hrst hend hoffers htakes n t hn
  have h : Delivering env s := ⟨hp, hrst, hend, hoffers, htakes⟩
  obtain ⟨m, u, hnm, hm, hlen⟩ := h.exists_taken_length hn le_rfl
  exact ⟨m, u, hnm, hm, List.prefix_of_prefix_length_le (h.total_prefix hn hnm hm) (List.prefix_append _ _) hlen⟩

/-- Settles O23: unless it is accepted before, the command meets a queue with room, which becomes ready. -/
theorem persistentCommandIsAccepted : Obligations.PersistentCommandIsAccepted := by
  intro env s hinv hp hrst hend hoffers htakes hready n hvalid
  have h : Delivering env s := ⟨hp, hrst, hend, hoffers, htakes⟩
  obtain ⟨t, hn⟩ := hend n
  obtain ⟨m, u, hnm, hm, hacc | hroom⟩ := h.exists_accepts_or_room hinv hn
  · exact ⟨m, u, hnm, hm, hacc⟩
  · obtain ⟨k, v, hmk, hk, hrdy⟩ := hready m u hm hroom
    have hnk : n ≤ k := hnm.trans hmk
    exact ⟨k, v, hnk, hk, Bool.and_eq_true_iff.mpr ⟨hvalid k hnk, hrdy⟩⟩

end Sys2Proof.Machine
